-- ==== Sys2Proof/Word.lean ====
section
/-! DEFINITION. The word types of the block (00_scope.md R9, R10): bytes, 16-bit words, the request
word and the DEC_IN port, and the two byte arrays it handles as values (20_memory.md R40). -/

namespace Sys2Proof

/-- A byte: bit 7 is the most significant (R9). -/
abbrev Byte := BitVec 8

/-- A 16-bit word, the pattern two bytes of a frame or command hold (R10, R11). -/
abbrev HalfWord := BitVec 16

/-- A 32-bit host request word: op in bits 31..24, arg in bits 23..0 (R66). -/
abbrev ReqWord := BitVec 32

/-- The 160-bit DEC_IN port: frame byte k in bits 8k+7..8k (R66). -/
abbrev DecIn := BitVec 160

/-- A complete frame as a value: bytes at offsets 0..19 (R9, R61). -/
abbrev Frame := Vector Byte 20

/-- A command as a value: bytes at offsets 0..4 (R9, R64). -/
abbrev CommandBytes := Vector Byte 5

end Sys2Proof
end

