-- ==== Sys2Proof/Config.lean ====
section
/-! DEFINITION. The wire constants the source fixes (00_scope.md R6), the configuration record for
those it does not give (R7), and R7's default bindings. -/

namespace Sys2Proof

/-- HEADING, byte 0 of every frame (R6). -/
abbrev heading : Byte := 0x55#8

/-- FLAG_STREAM, byte 1 of a streamed frame (R6). -/
abbrev flagStream : Byte := 0x61#8

/-- FLAG_REG, byte 1 of a register-echo frame (R6). -/
abbrev flagReg : Byte := 0x71#8

/-- REG_HI_EXPECTED, byte 3 of a register-echo frame (R6). -/
abbrev regHiExpected : Byte := 0x00#8

/-- CMD_HDR0, byte 0 of every command (R6). -/
abbrev cmdHdr0 : Byte := 0xFF#8

/-- CMD_HDR1, byte 1 of every command (R6). -/
abbrev cmdHdr1 : Byte := 0xAA#8

/-- CMD_RATE, the command code of set output rate (R6). -/
abbrev cmdRate : Byte := 0x03#8

/-- The wire constants the source does not give, one field for each row of R7's table. A run fixes
the record before its first request and never changes it (10_state.md R27). -/
structure WireConfig where
  /-- REG_MAG -/
  regMag : Byte
  /-- REG_QUAT -/
  regQuat : Byte
  /-- REG_TEMP -/
  regTemp : Byte
  /-- REG_BATT -/
  regBatt : Byte
  /-- REG_VERSION -/
  regVersion : Byte
  /-- REG_DATETIME -/
  regDateTime : Byte
  /-- CHECK_REG_HI -/
  checkRegHi : Bool
  /-- CMD_SAVE -/
  cmdSave : Byte
  /-- ARG_SAVE -/
  argSave : Byte
  /-- ARG_RESTORE -/
  argRestore : Byte
  /-- CMD_CAL -/
  cmdCal : Byte
  /-- ARG_CAL_QUIT -/
  argCalQuit : Byte
  /-- ARG_CAL_ACC -/
  argCalAcc : Byte
  /-- ARG_CAL_MAG -/
  argCalMag : Byte
  /-- CMD_READ -/
  cmdRead : Byte
  /-- CMD_TIME_YM -/
  cmdTimeYm : Byte
  /-- CMD_TIME_DH -/
  cmdTimeDh : Byte
  /-- CMD_TIME_MS -/
  cmdTimeMs : Byte
  /-- CMD_TIME_MSEC -/
  cmdTimeMsec : Byte
  /-- FWUPD_CODE, `none` while it is unbound (D17) -/
  fwupdCode : Option Byte
  /-- RATE_TABLE: (rate code, frequency in mHz) (43_scale_table.md R190) -/
  rateTable : List (Byte × Nat)
  /-- YEAR_BASE: the year that year byte 0 stands for -/
  yearBase : Nat
  /-- BATT_PCT at 330 + k hundredths of a volt, for k = 0..70; it clamps outside (R193; log entry 12) -/
  battPct : Vector Nat 71
  deriving DecidableEq, Repr

/-- R190's RATE_TABLE. PRESUMED but for (0x09, 100 Hz) and the two ends of the range: log entry 2. -/
def defaultRateTable : List (Byte × Nat) :=
  [(0x01#8, 200), (0x02#8, 500), (0x03#8, 1000), (0x04#8, 2000), (0x05#8, 5000),
   (0x06#8, 10000), (0x07#8, 20000), (0x08#8, 50000), (0x09#8, 100000), (0x0B#8, 200000)]

/-- R193's default BATT_PCT between its two anchors: linear, rounded down. -/
def defaultBattPct : Vector Nat 71 := Vector.ofFn fun k => k.val * 100 / 70

/-- R7's default bindings. PRESUMED (the sensor family's): log entry 2. FWUPD_CODE is left unbound,
as R7 gives it no default: log entry 3. -/
def WireConfig.default : WireConfig where
  regMag := 0x3A#8
  regQuat := 0x51#8
  regTemp := 0x40#8
  regBatt := 0x64#8
  regVersion := 0x2E#8
  regDateTime := 0x30#8
  checkRegHi := false
  cmdSave := 0x00#8
  argSave := 0x00#8
  argRestore := 0x01#8
  cmdCal := 0x01#8
  argCalQuit := 0x00#8
  argCalAcc := 0x01#8
  argCalMag := 0x07#8
  cmdRead := 0x27#8
  cmdTimeYm := 0x30#8
  cmdTimeDh := 0x31#8
  cmdTimeMs := 0x32#8
  cmdTimeMsec := 0x33#8
  fwupdCode := none
  rateTable := defaultRateTable
  yearBase := 2000
  battPct := defaultBattPct

end Sys2Proof
end

