-- ==== Sys2Proof/Syntax.lean ====
section
/-! DEFINITION. The instructions: one constructor for each row of spec/opcode_table.json, the builder
operations among them, and the raw forms they are encoded in (30_encoding.md R60). -/

namespace Sys2Proof

/-- The nine fields of a streamed frame, offsets 2..19 (R62). -/
structure StreamFields where
  ax : HalfWord
  ay : HalfWord
  az : HalfWord
  wx : HalfWord
  wy : HalfWord
  wz : HalfWord
  roll : HalfWord
  pitch : HalfWord
  yaw : HalfWord
  deriving DecidableEq, Repr

/-- The fields of a register-echo frame after its register byte: REGHI at offset 3 and the words
V0..V7 at offsets 4..19, the ones a kind does not read among them (R63). -/
structure EchoFields where
  regHi : Byte
  v0 : HalfWord
  v1 : HalfWord
  v2 : HalfWord
  v3 : HalfWord
  v4 : HalfWord
  v5 : HalfWord
  v6 : HalfWord
  v7 : HalfWord
  deriving DecidableEq, Repr

/-- The fields of a date/time frame after its register byte: REGHI, six single bytes at offsets
4..9, the millisecond word V3, and the words V4..V7 it does not read (R63). -/
structure DateTimeFields where
  regHi : Byte
  year : Byte
  month : Byte
  day : Byte
  hour : Byte
  minute : Byte
  second : Byte
  millisecond : HalfWord
  v4 : HalfWord
  v5 : HalfWord
  v6 : HalfWord
  v7 : HalfWord
  deriving DecidableEq, Repr

/-- The kinds of inbound frame that R68 tells apart. -/
inductive FrameKind where
  | streamed
  | mag
  | quat
  | temp
  | batt
  | version
  | dateTime
  | burst
  deriving DecidableEq, Repr

/-- One constructor for each row of spec/opcode_table.json. A `frame…` instruction is the
FrameDecoder's operation on a raw frame of that kind (log entry 7); a `cmd…` instruction is the
CommandEncoder's builder operation for that command, called by name (log entry 8); the others are the
host's requests (R66). -/
inductive Instr where
  | frameStreamed (p : StreamFields)
  | frameMag (e : EchoFields)
  | frameQuat (e : EchoFields)
  | frameTemp (e : EchoFields)
  | frameBatt (e : EchoFields)
  | frameVersion (e : EchoFields)
  | frameDateTime (d : DateTimeFields)
  | frameBurst (reg : Byte) (e : EchoFields)
  | cmdSave
  | cmdRestore
  | cmdCalAcc
  | cmdCalMag
  | cmdCalQuit
  | cmdSetRate (rate : Byte)
  | cmdReadReg (reg : Byte)
  | cmdTimeYm (yy mon : Byte)
  | cmdTimeDh (day hour : Byte)
  | cmdTimeMs (min sec : Byte)
  | cmdTimeMsec (ms : HalfWord)
  | cmdFwUpdate
  | feed (b : Byte)
  | decode (F : Frame)
  | encSave
  | encRestore
  | encCalAcc
  | encCalMag
  | encCalQuit
  | encSetRate (rate : Byte)
  | encReadReg (reg : Byte)
  | encTimeYm (yy mon : Byte)
  | encTimeDh (day hour : Byte)
  | encTimeMs (min sec : Byte)
  | encTimeMsec (ms : HalfWord)
  | encFwUpdate
  | lutBatt (cv : HalfWord)
  | lutRateHz (rate : Byte)
  | lutHzRate (mhz : BitVec 24)
  deriving DecidableEq, Repr

/-- The four formats of R60. -/
inductive Format where
  /-- FRAME-S, 20 bytes -/
  | frameS
  /-- FRAME-R, 20 bytes -/
  | frameR
  /-- CMD, 5 bytes -/
  | cmd
  /-- HREQ, 32 bits and the DEC_IN port -/
  | hreq
  deriving DecidableEq, Repr

/-- The CommandEncoder's builder operations, one for each command type, with their operands
(42_encoder.md section 0, R159 to R172). -/
inductive Builder where
  | save
  | restore
  | calAcc
  | calMag
  | calQuit
  | setRate (rate : Byte)
  | readReg (reg : Byte)
  | timeYm (yy mon : Byte)
  | timeDh (day hour : Byte)
  | timeMs (min sec : Byte)
  | timeMsec (ms : HalfWord)
  | fwUpdate
  deriving DecidableEq, Repr

/-- An instruction's bits as they stand outside the block: a request word with the DEC_IN port or a raw
frame, which go in, or a command's five bytes, which come out (R60). -/
inductive RawForm where
  | request (word : ReqWord) (decIn : DecIn)
  | frame (F : Frame)
  | command (C : CommandBytes)
  deriving DecidableEq, Repr

/-- The format of the table's row an instruction stands for (R60, R74). -/
def Instr.format : Instr → Format
  | .frameStreamed _ => .frameS
  | .frameMag _ => .frameR
  | .frameQuat _ => .frameR
  | .frameTemp _ => .frameR
  | .frameBatt _ => .frameR
  | .frameVersion _ => .frameR
  | .frameDateTime _ => .frameR
  | .frameBurst _ _ => .frameR
  | .cmdSave => .cmd
  | .cmdRestore => .cmd
  | .cmdCalAcc => .cmd
  | .cmdCalMag => .cmd
  | .cmdCalQuit => .cmd
  | .cmdSetRate _ => .cmd
  | .cmdReadReg _ => .cmd
  | .cmdTimeYm _ _ => .cmd
  | .cmdTimeDh _ _ => .cmd
  | .cmdTimeMs _ _ => .cmd
  | .cmdTimeMsec _ => .cmd
  | .cmdFwUpdate => .cmd
  | .feed _ => .hreq
  | .decode _ => .hreq
  | .encSave => .hreq
  | .encRestore => .hreq
  | .encCalAcc => .hreq
  | .encCalMag => .hreq
  | .encCalQuit => .hreq
  | .encSetRate _ => .hreq
  | .encReadReg _ => .hreq
  | .encTimeYm _ _ => .hreq
  | .encTimeDh _ _ => .hreq
  | .encTimeMs _ _ => .hreq
  | .encTimeMsec _ => .hreq
  | .encFwUpdate => .hreq
  | .lutBatt _ => .hreq
  | .lutRateHz _ => .hreq
  | .lutHzRate _ => .hreq

end Sys2Proof
end

