-- ==== Sys2Proof/WellFormed.lean ====
section
/-! DEFINITION. When a WireConfig is well formed (00_scope.md R8, 43_scale_table.md R193), and when
an instruction is one that the encodings of 30_encoding.md spell under a WireConfig. Each check is a
Bool of its own, so that a test can name the one that refuses. -/

namespace Sys2Proof

/-- The six REG_* values, in the order R131 compares them. -/
def WireConfig.regNumbers (cfg : WireConfig) : List Byte :=
  [cfg.regMag, cfg.regQuat, cfg.regTemp, cfg.regBatt, cfg.regVersion, cfg.regDateTime]

/-- R8: the six REG_* values are pairwise distinct. -/
def WireConfig.regsDistinct (cfg : WireConfig) : Bool := decide cfg.regNumbers.Nodup

/-- R8: RATE_TABLE has exactly ten entries. -/
def WireConfig.ratesTen (cfg : WireConfig) : Bool := cfg.rateTable.length == 10

/-- R8: RATE_TABLE's codes are pairwise distinct. -/
def WireConfig.rateCodesDistinct (cfg : WireConfig) : Bool :=
  decide (cfg.rateTable.map Prod.fst).Nodup

/-- R8: RATE_TABLE's frequencies are pairwise distinct. -/
def WireConfig.rateFreqsDistinct (cfg : WireConfig) : Bool :=
  decide (cfg.rateTable.map Prod.snd).Nodup

/-- R8: RATE_TABLE contains (0x09, 100 Hz). -/
def WireConfig.rateHas100Hz (cfg : WireConfig) : Bool :=
  cfg.rateTable.contains (0x09#8, 100000)

/-- R8: RATE_TABLE's lowest frequency is 0.2 Hz. -/
def WireConfig.rateLowest (cfg : WireConfig) : Bool :=
  cfg.rateTable.any (fun e => e.2 == 200) && cfg.rateTable.all (fun e => decide (200 ≤ e.2))

/-- R8: RATE_TABLE's highest frequency is 200 Hz. -/
def WireConfig.rateHighest (cfg : WireConfig) : Bool :=
  cfg.rateTable.any (fun e => e.2 == 200000) && cfg.rateTable.all (fun e => decide (e.2 ≤ 200000))

/-- R193: BATT_PCT(330) = 0 and BATT_PCT(400) = 100. -/
def WireConfig.battAnchors (cfg : WireConfig) : Bool :=
  cfg.battPct[0] == 0 && cfg.battPct[70] == 100

/-- No value of the list is above the one after it. -/
def nonDecreasing : List Nat → Bool
  | a :: b :: rest => decide (a ≤ b) && nonDecreasing (b :: rest)
  | _ => true

/-- R193: BATT_PCT is non-decreasing. -/
def WireConfig.battNonDecreasing (cfg : WireConfig) : Bool := nonDecreasing cfg.battPct.toList

/-- R193: BATT_PCT's values lie in 0..100. -/
def WireConfig.battInRange (cfg : WireConfig) : Bool :=
  cfg.battPct.toList.all (fun v => decide (v ≤ 100))

/-- R8: a model refuses a configuration unless all of these hold. That FWUPD_CODE, when bound, is a
byte holds by its type. -/
def WireConfig.wf (cfg : WireConfig) : Bool :=
  cfg.regsDistinct && cfg.ratesTen && cfg.rateCodesDistinct && cfg.rateFreqsDistinct
    && cfg.rateHas100Hz && cfg.rateLowest && cfg.rateHighest
    && cfg.battAnchors && cfg.battNonDecreasing && cfg.battInRange

/-- The command codes of R69's table, FWUPD_CODE last and only when it is bound. -/
def WireConfig.commandCodes (cfg : WireConfig) : List Byte :=
  [cfg.cmdSave, cfg.cmdCal, cmdRate, cfg.cmdRead, cfg.cmdTimeYm, cfg.cmdTimeDh, cfg.cmdTimeMs,
    cfg.cmdTimeMsec] ++ cfg.fwupdCode.toList

/-- No two rows of R69's command map spell the same five bytes. R8 does not ask for it and no rule of
the block needs it, as the block never decodes a command (R74): it says when five bytes match one
row of the table (log entry 9). -/
def WireConfig.commandsApart (cfg : WireConfig) : Bool :=
  decide cfg.commandCodes.Nodup && decide (cfg.argSave ≠ cfg.argRestore)
    && decide [cfg.argCalAcc, cfg.argCalMag, cfg.argCalQuit].Nodup

/-- R130: the byte at offset 3 of a register-echo frame passes the check CHECK_REG_HI asks for. -/
def WireConfig.regHiPasses (cfg : WireConfig) (regHi : Byte) : Bool :=
  !cfg.checkRegHi || regHi == regHiExpected

/-- The instructions that some raw form spells under `cfg`: a register-echo frame passes R130's
check, a burst's register is none of the six REG_* values (R68), and CMD.FW_UPDATE has a code only
when FWUPD_CODE is bound (R172). Every operand of every other row may take every value. -/
def Instr.wf (cfg : WireConfig) : Instr → Bool
  | .frameStreamed _ => true
  | .frameMag e => cfg.regHiPasses e.regHi
  | .frameQuat e => cfg.regHiPasses e.regHi
  | .frameTemp e => cfg.regHiPasses e.regHi
  | .frameBatt e => cfg.regHiPasses e.regHi
  | .frameVersion e => cfg.regHiPasses e.regHi
  | .frameDateTime d => cfg.regHiPasses d.regHi
  | .frameBurst reg e => cfg.regHiPasses e.regHi && !cfg.regNumbers.contains reg
  | .cmdSave => true
  | .cmdRestore => true
  | .cmdCalAcc => true
  | .cmdCalMag => true
  | .cmdCalQuit => true
  | .cmdSetRate _ => true
  | .cmdReadReg _ => true
  | .cmdTimeYm _ _ => true
  | .cmdTimeDh _ _ => true
  | .cmdTimeMs _ _ => true
  | .cmdTimeMsec _ => true
  | .cmdFwUpdate => cfg.fwupdCode.isSome
  | .feed _ => true
  | .decode _ => true
  | .encSave => true
  | .encRestore => true
  | .encCalAcc => true
  | .encCalMag => true
  | .encCalQuit => true
  | .encSetRate _ => true
  | .encReadReg _ => true
  | .encTimeYm _ _ => true
  | .encTimeDh _ _ => true
  | .encTimeMs _ _ => true
  | .encTimeMsec _ => true
  | .encFwUpdate => true
  | .lutBatt _ => true
  | .lutRateHz _ => true
  | .lutHzRate _ => true

end Sys2Proof
end

