-- ==== Sys2Proof/Decode.lean ====
section
/-! DEFINITION. Decoding of the block's two inbound forms, total and rejecting by name; the match of a
raw form against the opcode table; and after them the encoder (30_encoding.md R60 to R74). -/

namespace Sys2Proof

/-! ### Byte order (00_scope.md R11) -/

/-- The low byte of a 16-bit word: the one at the lower offset. -/
def HalfWord.lo (v : HalfWord) : Byte := v.extractLsb' 0 8

/-- The high byte of a 16-bit word: the one at the next offset. -/
def HalfWord.hi (v : HalfWord) : Byte := v.extractLsb' 8 8

/-- R11's `le16(A, o)` on a frame: low byte at offset o, high byte at o + 1. It is R12's
`MemRead(o, 2)`. -/
def Frame.le16 (F : Frame) (o : Nat) (h : o + 1 < 20 := by decide) : HalfWord := F[o + 1] ++ F[o]

/-- The frame on DEC_IN: byte k is DEC_IN[8k+7:8k] (R66). -/
def Frame.ofDecIn (d : DecIn) : Frame := Vector.ofFn fun k => d.extractLsb' (8 * k.val) 8

/-- The DEC_IN value that carries a frame (R66): byte 19 highest. -/
def Frame.toDecIn (F : Frame) : DecIn :=
  F[19] ++ F[18] ++ F[17] ++ F[16] ++ F[15] ++ F[14] ++ F[13] ++ F[12] ++ F[11] ++ F[10]
    ++ F[9] ++ F[8] ++ F[7] ++ F[6] ++ F[5] ++ F[4] ++ F[3] ++ F[2] ++ F[1] ++ F[0]

/-- A command's bytes as one value in the response, byte k at bits 8k+7..8k (D31). -/
def CommandBytes.toBits (C : CommandBytes) : BitVec 40 := C[4] ++ C[3] ++ C[2] ++ C[1] ++ C[0]

/-! ### Decoding what comes in -/

/-- Why a raw form is no instruction. -/
inductive Reject where
  /-- op is not in R66's table (R70, R202) -/
  | unassignedOp
  /-- a reserved bit of arg is set (R66, R202) -/
  | reservedBits
  /-- F[0] is not 0x55 (R123) -/
  | badHeading
  /-- F[1] is neither 0x61 nor 0x71 (R124) -/
  | badFlag
  /-- CHECK_REG_HI and F[1] = 0x71 and F[3] is not 0x00 (R130) -/
  | badRegHi
  /-- C[0], C[1] are not FF AA (R64) -/
  | badCommandHeader
  /-- the five bytes match no CMD row (R69, R74) -/
  | unknownCommand
  deriving DecidableEq, Repr

/-- What decoding answers. -/
inductive Verdict (α : Type) where
  | accepted (a : α)
  | rejected (r : Reject)
  deriving DecidableEq, Repr

/-- op = word[31:24] (R66). -/
def reqOp (w : ReqWord) : Byte := w.extractLsb' 24 8

/-- arg[7:0] (R66). -/
def reqByte0 (w : ReqWord) : Byte := w.extractLsb' 0 8

/-- arg[15:8] (R66). -/
def reqByte1 (w : ReqWord) : Byte := w.extractLsb' 8 8

/-- arg[15:0] (R66). -/
def reqHalf (w : ReqWord) : HalfWord := w.extractLsb' 0 16

/-- arg[23:0] (R66). -/
def reqArg (w : ReqWord) : BitVec 24 := w.extractLsb' 0 24

/-- One row of R66's table: the op, the reserved bits of the word, and the request its operands make. -/
structure RequestRow where
  op : Byte
  reserved : ReqWord
  build : ReqWord → DecIn → Instr

/-- R66's table, row by row. -/
def requestRows : List RequestRow :=
  [⟨0x01#8, 0x00FFFF00#32, fun w _ => .feed (reqByte0 w)⟩,
   ⟨0x02#8, 0x00FFFFFF#32, fun _ d => .decode (Frame.ofDecIn d)⟩,
   ⟨0x10#8, 0x00FFFFFF#32, fun _ _ => .encSave⟩,
   ⟨0x11#8, 0x00FFFFFF#32, fun _ _ => .encRestore⟩,
   ⟨0x12#8, 0x00FFFFFF#32, fun _ _ => .encCalAcc⟩,
   ⟨0x13#8, 0x00FFFFFF#32, fun _ _ => .encCalMag⟩,
   ⟨0x14#8, 0x00FFFFFF#32, fun _ _ => .encCalQuit⟩,
   ⟨0x15#8, 0x00FFFF00#32, fun w _ => .encSetRate (reqByte0 w)⟩,
   ⟨0x16#8, 0x00FFFF00#32, fun w _ => .encReadReg (reqByte0 w)⟩] ++
  [⟨0x17#8, 0x00FF0000#32, fun w _ => .encTimeYm (reqByte0 w) (reqByte1 w)⟩,
   ⟨0x18#8, 0x00FF0000#32, fun w _ => .encTimeDh (reqByte0 w) (reqByte1 w)⟩,
   ⟨0x19#8, 0x00FF0000#32, fun w _ => .encTimeMs (reqByte0 w) (reqByte1 w)⟩,
   ⟨0x1A#8, 0x00FF0000#32, fun w _ => .encTimeMsec (reqHalf w)⟩,
   ⟨0x1B#8, 0x00FFFFFF#32, fun _ _ => .encFwUpdate⟩,
   ⟨0x20#8, 0x00FF0000#32, fun w _ => .lutBatt (reqHalf w)⟩,
   ⟨0x21#8, 0x00FFFF00#32, fun w _ => .lutRateHz (reqByte0 w)⟩,
   ⟨0x22#8, 0x00000000#32, fun w _ => .lutHzRate (reqArg w)⟩]

/-- A host request: the op first, then its reserved bits (R206 item 1). -/
def decodeRequest (w : ReqWord) (d : DecIn) : Verdict Instr :=
  match requestRows.find? (fun r => r.op == reqOp w) with
  | none => .rejected .unassignedOp
  | some r =>
    if w &&& r.reserved = 0#32 then .accepted (r.build w d) else .rejected .reservedBits

/-- The register dispatch of R68, in R131's order: the first match wins. -/
def echoKind (cfg : WireConfig) (reg : Byte) : FrameKind :=
  if reg = cfg.regMag then .mag
  else if reg = cfg.regQuat then .quat
  else if reg = cfg.regTemp then .temp
  else if reg = cfg.regBatt then .batt
  else if reg = cfg.regVersion then .version
  else if reg = cfg.regDateTime then .dateTime
  else .burst

/-- R68's `classify`. -/
def classify (cfg : WireConfig) (F : Frame) : Verdict FrameKind :=
  if F[0] ≠ heading then .rejected .badHeading
  else if F[1] = flagStream then .accepted .streamed
  else if F[1] = flagReg then
    if cfg.checkRegHi = true ∧ F[3] ≠ regHiExpected then .rejected .badRegHi
    else .accepted (echoKind cfg F[2])
  else .rejected .badFlag

/-- The fields of R62's layout. -/
def Frame.streamFields (F : Frame) : StreamFields where
  ax := F.le16 2
  ay := F.le16 4
  az := F.le16 6
  wx := F.le16 8
  wy := F.le16 10
  wz := F.le16 12
  roll := F.le16 14
  pitch := F.le16 16
  yaw := F.le16 18

/-- The fields of R63's layout: Vk at offset 4 + 2k. UNVERIFIED against a device: log entry 20. -/
def Frame.echoFields (F : Frame) : EchoFields where
  regHi := F[3]
  v0 := F.le16 4
  v1 := F.le16 6
  v2 := F.le16 8
  v3 := F.le16 10
  v4 := F.le16 12
  v5 := F.le16 14
  v6 := F.le16 16
  v7 := F.le16 18

/-- The fields of R63's DateTime layout. -/
def Frame.dateTimeFields (F : Frame) : DateTimeFields where
  regHi := F[3]
  year := F[4]
  month := F[5]
  day := F[6]
  hour := F[7]
  minute := F[8]
  second := F[9]
  millisecond := F.le16 10
  v4 := F.le16 12
  v5 := F.le16 14
  v6 := F.le16 16
  v7 := F.le16 18

/-- The table's FRAME row of a kind, with the operands the frame's bytes give it. -/
def frameInstr (F : Frame) : FrameKind → Instr
  | .streamed => .frameStreamed F.streamFields
  | .mag => .frameMag F.echoFields
  | .quat => .frameQuat F.echoFields
  | .temp => .frameTemp F.echoFields
  | .batt => .frameBatt F.echoFields
  | .version => .frameVersion F.echoFields
  | .dateTime => .frameDateTime F.dateTimeFields
  | .burst => .frameBurst F[2] F.echoFields

/-- A raw frame offered to the FrameDecoder (log entry 7). -/
def decodeFrame (cfg : WireConfig) (F : Frame) : Verdict Instr :=
  match classify cfg F with
  | .accepted k => .accepted (frameInstr F k)
  | .rejected r => .rejected r

/-! ### Matching the opcode table

CMD rows describe what the block puts out, and the block never decodes one (R74): no step matches five
bytes. The match reads the table for whoever holds a row's bits, as the host does that asks about a
row. -/

/-- The CMD row that five bytes match, as the builder operation that emits it (R69, R74). The rows are
tried in the table's order, CMD.FW_UPDATE last: its CODE is FWUPD_CODE, or any byte while that is
unbound, as R74 masks it out (log entry 9). -/
def matchCommand (cfg : WireConfig) (C : CommandBytes) : Verdict Builder :=
  if C[0] ≠ cmdHdr0 ∨ C[1] ≠ cmdHdr1 then .rejected .badCommandHeader
  else if C[2] = cfg.cmdSave ∧ C[3] = cfg.argSave ∧ C[4] = 0#8 then .accepted .save
  else if C[2] = cfg.cmdSave ∧ C[3] = cfg.argRestore ∧ C[4] = 0#8 then .accepted .restore
  else if C[2] = cfg.cmdCal ∧ C[3] = cfg.argCalAcc ∧ C[4] = 0#8 then .accepted .calAcc
  else if C[2] = cfg.cmdCal ∧ C[3] = cfg.argCalMag ∧ C[4] = 0#8 then .accepted .calMag
  else if C[2] = cfg.cmdCal ∧ C[3] = cfg.argCalQuit ∧ C[4] = 0#8 then .accepted .calQuit
  else if C[2] = cmdRate ∧ C[4] = 0#8 then .accepted (.setRate C[3])
  else if C[2] = cfg.cmdRead ∧ C[4] = 0#8 then .accepted (.readReg C[3])
  else if C[2] = cfg.cmdTimeYm then .accepted (.timeYm C[3] C[4])
  else if C[2] = cfg.cmdTimeDh then .accepted (.timeDh C[3] C[4])
  else if C[2] = cfg.cmdTimeMs then .accepted (.timeMs C[3] C[4])
  else if C[2] = cfg.cmdTimeMsec then .accepted (.timeMsec (C[4] ++ C[3]))
  else if (cfg.fwupdCode = none ∨ cfg.fwupdCode = some C[2]) ∧ C[3] = 0#8 ∧ C[4] = 0#8 then
    .accepted .fwUpdate
  else .rejected .unknownCommand

/-- The CMD row of the table whose command an operation builds (R69). -/
def Builder.instr : Builder → Instr
  | .save => .cmdSave
  | .restore => .cmdRestore
  | .calAcc => .cmdCalAcc
  | .calMag => .cmdCalMag
  | .calQuit => .cmdCalQuit
  | .setRate rate => .cmdSetRate rate
  | .readReg reg => .cmdReadReg reg
  | .timeYm yy mon => .cmdTimeYm yy mon
  | .timeDh day hour => .cmdTimeDh day hour
  | .timeMs min sec => .cmdTimeMs min sec
  | .timeMsec ms => .cmdTimeMsec ms
  | .fwUpdate => .cmdFwUpdate

/-- The row of the table that a raw form matches, with its operands (R74). -/
def matchForm (cfg : WireConfig) : RawForm → Verdict Instr
  | .request w d => decodeRequest w d
  | .frame F => decodeFrame cfg F
  | .command C =>
    match matchCommand cfg C with
    | .accepted b => .accepted b.instr
    | .rejected r => .rejected r

/-- The raw form that a row's bits stand for in spec/opcode_table.json, byte 0 leftmost, the most
significant (R74): a FRAME row has 24 bits (frame bytes 0..2, the bytes above them 0), a CMD row 40, an
HREQ row 32 (log entry 10). -/
def tableForm (nbits w : Nat) : RawForm :=
  let byte (k : Nat) : Byte := BitVec.ofNat 8 (w >>> (8 * k))
  if nbits = 24 then
    .frame #v[byte 2, byte 1, byte 0, 0, 0, 0, 0, 0, 0, 0, 0, 0, 0, 0, 0, 0, 0, 0, 0, 0]
  else if nbits = 40 then .command #v[byte 4, byte 3, byte 2, byte 1, byte 0]
  else .request (BitVec.ofNat 32 w) (BitVec.ofNat 160 (w >>> 32))

/-- The instruction of the row that a table word matches, under R7's default bindings. -/
def decodeTableWord (nbits w : Nat) : Option Instr :=
  match matchForm WireConfig.default (tableForm nbits w) with
  | .accepted i => some i
  | .rejected _ => none

/-! ### Encoding -/

/-- A request word whose operand is one byte, arg[7:0]. -/
def wordOfByte (op b : Byte) : ReqWord := op ++ 0#16 ++ b

/-- A request word whose operands are arg[7:0] and arg[15:8]. -/
def wordOfBytes (op b0 b1 : Byte) : ReqWord := op ++ 0#8 ++ b1 ++ b0

/-- A request word whose operand is arg[15:0]. -/
def wordOfHalf (op : Byte) (v : HalfWord) : ReqWord := op ++ 0#8 ++ v

/-- A request word whose operand is arg[23:0]; zero for a request without operands. -/
def wordOfArg (op : Byte) (v : BitVec 24) : ReqWord := op ++ v

/-- R62's layout, byte by byte. -/
def streamFrame (p : StreamFields) : Frame :=
  #v[heading, flagStream, p.ax.lo, p.ax.hi, p.ay.lo, p.ay.hi, p.az.lo, p.az.hi,
     p.wx.lo, p.wx.hi, p.wy.lo, p.wy.hi, p.wz.lo, p.wz.hi,
     p.roll.lo, p.roll.hi, p.pitch.lo, p.pitch.hi, p.yaw.lo, p.yaw.hi]

/-- R63's layout, byte by byte, with the register byte given. -/
def echoFrame (reg : Byte) (e : EchoFields) : Frame :=
  #v[heading, flagReg, reg, e.regHi, e.v0.lo, e.v0.hi, e.v1.lo, e.v1.hi,
     e.v2.lo, e.v2.hi, e.v3.lo, e.v3.hi, e.v4.lo, e.v4.hi,
     e.v5.lo, e.v5.hi, e.v6.lo, e.v6.hi, e.v7.lo, e.v7.hi]

/-- R63's DateTime layout, byte by byte, with the register byte given. -/
def dateTimeFrame (reg : Byte) (d : DateTimeFields) : Frame :=
  #v[heading, flagReg, reg, d.regHi, d.year, d.month, d.day, d.hour, d.minute, d.second,
     d.millisecond.lo, d.millisecond.hi, d.v4.lo, d.v4.hi,
     d.v5.lo, d.v5.hi, d.v6.lo, d.v6.hi, d.v7.lo, d.v7.hi]

/-- R64's layout. -/
def commandBytes (code lo hi : Byte) : CommandBytes := #v[cmdHdr0, cmdHdr1, code, lo, hi]

/-- The raw form of an instruction under `cfg`; none only for CMD.FW_UPDATE while FWUPD_CODE is
unbound, which no bytes spell (R172). -/
def encode (cfg : WireConfig) : Instr → Option RawForm
  | .frameStreamed p => some (.frame (streamFrame p))
  | .frameMag e => some (.frame (echoFrame cfg.regMag e))
  | .frameQuat e => some (.frame (echoFrame cfg.regQuat e))
  | .frameTemp e => some (.frame (echoFrame cfg.regTemp e))
  | .frameBatt e => some (.frame (echoFrame cfg.regBatt e))
  | .frameVersion e => some (.frame (echoFrame cfg.regVersion e))
  | .frameDateTime d => some (.frame (dateTimeFrame cfg.regDateTime d))
  | .frameBurst reg e => some (.frame (echoFrame reg e))
  | .cmdSave => some (.command (commandBytes cfg.cmdSave cfg.argSave 0#8))
  | .cmdRestore => some (.command (commandBytes cfg.cmdSave cfg.argRestore 0#8))
  | .cmdCalAcc => some (.command (commandBytes cfg.cmdCal cfg.argCalAcc 0#8))
  | .cmdCalMag => some (.command (commandBytes cfg.cmdCal cfg.argCalMag 0#8))
  | .cmdCalQuit => some (.command (commandBytes cfg.cmdCal cfg.argCalQuit 0#8))
  | .cmdSetRate rate => some (.command (commandBytes cmdRate rate 0#8))
  | .cmdReadReg reg => some (.command (commandBytes cfg.cmdRead reg 0#8))
  | .cmdTimeYm yy mon => some (.command (commandBytes cfg.cmdTimeYm yy mon))
  | .cmdTimeDh day hour => some (.command (commandBytes cfg.cmdTimeDh day hour))
  | .cmdTimeMs min sec => some (.command (commandBytes cfg.cmdTimeMs min sec))
  | .cmdTimeMsec ms => some (.command (commandBytes cfg.cmdTimeMsec ms.lo ms.hi))
  | .cmdFwUpdate => cfg.fwupdCode.map fun c => .command (commandBytes c 0#8 0#8)
  | .feed b => some (.request (wordOfByte 0x01#8 b) 0)
  | .decode F => some (.request (wordOfArg 0x02#8 0) F.toDecIn)
  | .encSave => some (.request (wordOfArg 0x10#8 0) 0)
  | .encRestore => some (.request (wordOfArg 0x11#8 0) 0)
  | .encCalAcc => some (.request (wordOfArg 0x12#8 0) 0)
  | .encCalMag => some (.request (wordOfArg 0x13#8 0) 0)
  | .encCalQuit => some (.request (wordOfArg 0x14#8 0) 0)
  | .encSetRate rate => some (.request (wordOfByte 0x15#8 rate) 0)
  | .encReadReg reg => some (.request (wordOfByte 0x16#8 reg) 0)
  | .encTimeYm yy mon => some (.request (wordOfBytes 0x17#8 yy mon) 0)
  | .encTimeDh day hour => some (.request (wordOfBytes 0x18#8 day hour) 0)
  | .encTimeMs min sec => some (.request (wordOfBytes 0x19#8 min sec) 0)
  | .encTimeMsec ms => some (.request (wordOfHalf 0x1A#8 ms) 0)
  | .encFwUpdate => some (.request (wordOfArg 0x1B#8 0) 0)
  | .lutBatt cv => some (.request (wordOfHalf 0x20#8 cv) 0)
  | .lutRateHz rate => some (.request (wordOfByte 0x21#8 rate) 0)
  | .lutHzRate mhz => some (.request (wordOfArg 0x22#8 mhz) 0)

end Sys2Proof
end

