-- ==== Sys2Proof/Machine/State.lean ====
section
/-! DEFINITION. The state of the block, its responses, the reasons a step can stop, and reset. -/

namespace Sys2Proof.Machine

open Sys2Proof

/-! ### Results (41_decoder.md R121, 30_encoding.md R67) -/

/-- An exact rational num / den, den fixed for each quantity (00_scope.md R13). It is not reduced. -/
structure Fixed where
  num : Int
  den : Nat
  deriving DecidableEq, Repr

/-- A triple of quantities: x, y, z, or roll, pitch, yaw (R121). -/
structure Vec3 where
  x : Fixed
  y : Fixed
  z : Fixed
  deriving DecidableEq, Repr

/-- The fields of a DateTime sample (R121, R137). -/
structure DateTime where
  year : Nat
  month : Byte
  day : Byte
  hour : Byte
  minute : Byte
  second : Byte
  millisecond : HalfWord
  deriving DecidableEq, Repr

/-- R121's Sample. -/
inductive Sample where
  /-- acceleration in g, angular velocity in °/s, angles (roll, pitch, yaw) in ° -/
  | streamed (acc gyro angle : Vec3)
  /-- raw counts -/
  | magneticField (x y z : Int)
  | quaternion (q0 q1 q2 q3 : Fixed)
  /-- °C -/
  | temperature (t : Fixed)
  /-- V -/
  | batteryVoltage (v : Fixed)
  | firmwareVersion (ver : HalfWord)
  | dateTime (t : DateTime)
  /-- eight opaque 16-bit patterns (R139) -/
  | registerBurst (reg : Byte) (words : Vector HalfWord 8)
  deriving DecidableEq, Repr

/-- The payloads of status OK (R67). -/
inductive Payload where
  | frame (F : Frame) (S : Sample)
  | sample (S : Sample)
  | command (C : CommandBytes)
  | value (v : Nat)
  deriving DecidableEq, Repr

/-- The three errors, each with what it records (60_exceptions.md R201). -/
inductive BlockError where
  /-- status 2, with all 20 bytes of the frame -/
  | unrecognizedFrame (F : Frame)
  /-- status 3, with the rate byte -/
  | badArgument (a : Byte)
  /-- status 4, with the request word -/
  | illegalRequest (w : ReqWord)
  deriving DecidableEq, Repr

/-- One response (R67): status OK with a payload, NONE, or an error (log entry 24). -/
inductive Response where
  | ok (p : Payload)
  | noFrame
  | error (e : BlockError)
  deriving DecidableEq, Repr

/-! ### State (10_state.md R20) -/

/-- The synchronizer's phase (R20). -/
inductive Phase where
  | seekHeading
  | awaitFlag
  | awaitRegister
  | collecting
  deriving DecidableEq, Repr

/-- The frame space (20_memory.md R40): (offset, byte) cells, offsets strictly rising. An offset that
is not listed holds no known byte (10_state.md R30; log entry 6). -/
abbrev Memory := List Host.Cell

/-- What the host can put before the block for one step. A command's five bytes are no input: the block
never decodes a command (30_encoding.md R74). -/
inductive Input where
  /-- a request word with the DEC_IN port (R66) -/
  | request (word : ReqWord) (decIn : DecIn)
  /-- a raw frame handed to the FrameDecoder (log entry 7) -/
  | frame (F : Frame)
  /-- a call of a builder operation by its name, with its operands (log entry 8) -/
  | builder (b : Builder)
  /-- the reset input (70_reset_and_hazards.md R230) -/
  | reset
  deriving DecidableEq, Repr

/-- The block. `phase`, `cursor` and `buf` are R20's three pieces of state; `cfg` is the run's
WireConfig, which no step changes (R27; log entry 1); `pending` and `resp` are the model's own (log
entries 4 and 5). -/
structure State where
  /-- the synchronizer's phase -/
  phase : Phase
  /-- bytes accumulated in the current candidate frame, 0..19 -/
  cursor : Fin 20
  /-- the RawFrame under assembly -/
  buf : Memory
  /-- the run's configuration, a parameter and not state of the block -/
  cfg : WireConfig
  /-- inputs the host has issued and the block has not taken, oldest first -/
  pending : List Input
  /-- the response of the step that led here, if it gave one; nothing reads it (R26, R32) -/
  resp : Option Response
  deriving DecidableEq, Repr

/-- Why the model stops with a fault. -/
inductive Fault where
  /-- Raised by a completing FEED that would read a byte of `buf` which no FEED has written (R30: a
  model must fault there; no rule reads one). Safe: no run from reset reaches it. -/
  | unknownByte
  deriving DecidableEq, Repr

/-- Why the model gives no meaning. -/
inductive Refusal where
  /-- An instruction without a meaning yet, by its mnemonic. Safe. No arm uses it. -/
  | notModelled (mnemonic : String)
  /-- Raised by every step, and by a rate lookup in an empty RATE_TABLE, while the WireConfig is ill
  formed (00_scope.md R8, 60_exceptions.md R204). Safe. -/
  | illFormedConfig
  /-- Raised by ENC_FW_UPDATE and its builder while FWUPD_CODE is unbound (42_encoder.md R172, R204).
  Safe. -/
  | fwUpdateUnbound
  deriving DecidableEq, Repr

/-- The machine right after reset or power-on (R31, R230): SeekHeading, cursor 0, no byte of `buf`
known, nothing issued and no response. The configuration is R7's default bindings (log entries 2, 3). -/
def State.reset : State where
  phase := .seekHeading
  cursor := 0
  buf := []
  cfg := WireConfig.default
  pending := []
  resp := none

end Sys2Proof.Machine
end

