-- ==== Sys2Proof/Machine/Operands.lean ====
section
/-! DEFINITION. How operands become values (30_encoding.md R65): sign extension, the scales of
41_decoder.md R126 to R128 and R133 to R135, and the sample each frame kind gives (R125 to R139). -/

namespace Sys2Proof.Machine

open Sys2Proof

/-- R11's s16 reading of a 16-bit pattern: two's complement. -/
def s16 (v : HalfWord) : Int := v.toInt

/-- R11's u16 reading of a 16-bit pattern. -/
def u16 (v : HalfWord) : Nat := v.toNat

/-- `accel(raw) = raw / 2048` g (R126). -/
def accel (v : HalfWord) : Fixed := ⟨s16 v, 2048⟩

/-- `gyro(raw) = raw × 125 / 2048` °/s (R127). -/
def gyro (v : HalfWord) : Fixed := ⟨s16 v * 125, 2048⟩

/-- `angle(raw) = raw × 45 / 8192` degrees (R128). -/
def angle (v : HalfWord) : Fixed := ⟨s16 v * 45, 8192⟩

/-- `raw / 32768` (R133). -/
def quatPart (v : HalfWord) : Fixed := ⟨s16 v, 32768⟩

/-- `raw / 100` °C, signed (R134). -/
def celsius (v : HalfWord) : Fixed := ⟨s16 v, 100⟩

/-- `raw / 100` V, unsigned (R135). -/
def volts (v : HalfWord) : Fixed := ⟨Int.ofNat (u16 v), 100⟩

/-- `streamed(F)` (R125). -/
def streamedSample (p : StreamFields) : Sample :=
  .streamed ⟨accel p.ax, accel p.ay, accel p.az⟩ ⟨gyro p.wx, gyro p.wy, gyro p.wz⟩
    ⟨angle p.roll, angle p.pitch, angle p.yaw⟩

/-- `mag(F)` (R132). -/
def magSample (e : EchoFields) : Sample := .magneticField (s16 e.v0) (s16 e.v1) (s16 e.v2)

/-- `quat(F)` (R133). -/
def quatSample (e : EchoFields) : Sample :=
  .quaternion (quatPart e.v0) (quatPart e.v1) (quatPart e.v2) (quatPart e.v3)

/-- `temp(F)` (R134). -/
def tempSample (e : EchoFields) : Sample := .temperature (celsius e.v0)

/-- `batt(F)` (R135). -/
def battSample (e : EchoFields) : Sample := .batteryVoltage (volts e.v0)

/-- `ver(F)` (R136). -/
def versionSample (e : EchoFields) : Sample := .firmwareVersion e.v0

/-- `dt(F)` (R137). No field is range-checked, and the year does not wrap (log entry 15). -/
def dateTimeSample (cfg : WireConfig) (d : DateTimeFields) : Sample :=
  .dateTime
    { year := cfg.yearBase + d.year.toNat, month := d.month, day := d.day, hour := d.hour,
      minute := d.minute, second := d.second, millisecond := d.millisecond }

/-- `burst(F)` (R139). -/
def burstSample (reg : Byte) (e : EchoFields) : Sample :=
  .registerBurst reg #v[e.v0, e.v1, e.v2, e.v3, e.v4, e.v5, e.v6, e.v7]

/-- The sample of a classified frame (R120). -/
def sampleOf (cfg : WireConfig) (F : Frame) : FrameKind → Sample
  | .streamed => streamedSample F.streamFields
  | .mag => magSample F.echoFields
  | .quat => quatSample F.echoFields
  | .temp => tempSample F.echoFields
  | .batt => battSample F.echoFields
  | .version => versionSample F.echoFields
  | .dateTime => dateTimeSample cfg F.dateTimeFields
  | .burst => burstSample F[2] F.echoFields

end Sys2Proof.Machine
end

