-- ==== Sys2Proof/Machine/Ops.lean ====
section
/-! DEFINITION. The named operations: the frame space, responses and errors, decoding a frame, building
a command, the two lookups, the reset input, and taking the next input. -/

namespace Sys2Proof.Machine

open Sys2Proof

/-- How a step or a meaning ends. -/
abbrev Result := Host.Outcome State Fault Refusal

/-! ### The frame space (20_memory.md R40, 10_state.md R30) -/

/-- What an offset that is not listed reads as: no value (log entry 6). -/
def Memory.unlisted : Option Byte := none

/-- The byte at an offset. -/
def Memory.read : Memory → Nat → Option Byte
  | [], _ => Memory.unlisted
  | c :: rest, o => if c.1 = o then some c.2 else Memory.read rest o

/-- `buf[o] <- b` (R12), in canonical form. -/
def Memory.write : Memory → Fin 20 → Byte → Memory
  | [], o, b => [(o.val, b)]
  | c :: rest, o, b =>
    if o.val < c.1 then (o.val, b) :: c :: rest
    else if o.val = c.1 then (o.val, b) :: rest
    else c :: Memory.write rest o b

/-- Offsets strictly rise from a lower bound and stay below 20. -/
def Memory.sortedFrom : Nat → Memory → Bool
  | _, [] => true
  | n, c :: rest => decide (n ≤ c.1) && decide (c.1 < 20) && Memory.sortedFrom (c.1 + 1) rest

/-- The canonical form: offsets strictly rising, each in 0..19. An unlisted offset reads as no value,
so no cell can repeat it. -/
def Memory.wf (m : Memory) : Bool := Memory.sortedFrom 0 m

/-- The bytes at k offsets from o on; none while one of them is unknown (R30). -/
def Memory.bytes (m : Memory) : Nat → Nat → Option (List Byte)
  | _, 0 => some []
  | o, k + 1 =>
    match m.read o with
    | none => none
    | some b => (Memory.bytes m (o + 1) k).map (b :: ·)

/-- Twenty bytes as a frame; none of any other number. -/
def frameOfList (bs : List Byte) : Option Frame :=
  if h : bs.toArray.size = 20 then some ⟨bs.toArray, h⟩ else none

/-- `buf[0..19]` as a value (40_synchronizer.md R105); none while a byte is unknown (R30). -/
def Memory.frame (m : Memory) : Option Frame := (m.bytes 0 20).bind frameOfList

/-! ### Responses and errors -/

/-- `respond S(payload)` (R12): the response is this step's output. -/
def State.respond (s : State) (r : Response) : State := { s with resp := some r }

/-- `raise E(info)` (R12, 60_exceptions.md R200, R203): the ONE way an error is taken. The response
names it, nothing else changes, and the block goes on with the next request. There is no return from
it, as no control is transferred (R208). -/
def State.raise (s : State) (e : BlockError) : Result := .next (s.respond (.error e))

/-- Ending with status OK and a payload. -/
def State.ok (s : State) (p : Payload) : Result := .next (s.respond (.ok p))

/-! ### FrameDecoder (41_decoder.md R120) -/

/-- `decode(F)`: a sample, or the reason the frame is unrecognized. It is a function of F and the
WireConfig alone (R140). -/
def decodeSample (cfg : WireConfig) (F : Frame) : Verdict Sample :=
  match classify cfg F with
  | .accepted k => .accepted (sampleOf cfg F k)
  | .rejected r => .rejected r

/-- R130's check on the byte at offset 3 of a register-echo frame. -/
def regHiAccepted (cfg : WireConfig) (regHi : Byte) : Bool :=
  !(cfg.checkRegHi && regHi != regHiExpected)

/-- A register-echo kind: R130's check, then the sample. -/
def State.echo (s : State) (regHi : Byte) (F : Frame) (S : Sample) : Result :=
  if regHiAccepted s.cfg regHi = true then s.ok (.sample S) else s.raise (.unrecognizedFrame F)

/-! ### CommandEncoder (42_encoder.md R159) -/

/-- `build(code, lo, hi)`: all five bytes are written on every call. -/
def State.build (s : State) (code lo hi : Byte) : Result := s.ok (.command (commandBytes code lo hi))

/-- Whether a rate code is in codes(RATE_TABLE) (R165). -/
def inRateTable (cfg : WireConfig) (rate : Byte) : Bool :=
  (cfg.rateTable.map Prod.fst).contains rate

/-- Set output rate (R165): a code outside the table is a bad argument. -/
def State.buildRate (s : State) (rate : Byte) : Result :=
  if inRateTable s.cfg rate = true then s.build cmdRate rate 0#8 else s.raise (.badArgument rate)

/-- Enter firmware-update mode (R172): refused while FWUPD_CODE is unbound. -/
def State.buildFwUpdate (s : State) : Result :=
  match s.cfg.fwupdCode with
  | none => .refused .fwUpdateUnbound
  | some c => s.build c 0#8 0#8

/-! ### ScaleTable (43_scale_table.md) -/

/-- The frequency RATE_TABLE gives a code (R191). -/
def rateHz : List (Byte × Nat) → Byte → Option Nat
  | [], _ => none
  | e :: rest, rate => if e.1 = rate then some e.2 else rateHz rest rate

/-- `|f - mhz|`. -/
def freqDistance (f mhz : Nat) : Nat := (f - mhz) + (mhz - f)

/-- The entry of two whose frequency is nearer to `mhz`; on a tie the one with the smaller frequency
(R192). -/
def nearer (mhz : Nat) (a b : Byte × Nat) : Byte × Nat :=
  if freqDistance b.2 mhz < freqDistance a.2 mhz then b
  else if freqDistance b.2 mhz = freqDistance a.2 mhz ∧ b.2 < a.2 then b
  else a

/-- R192's best entry; none only of an empty table. -/
def nearestRate (mhz : Nat) : List (Byte × Nat) → Option (Byte × Nat)
  | [] => none
  | e :: rest => some (rest.foldl (nearer mhz) e)

/-- BATT_PCT(cv) (R193): the value at the nearest of the 71 voltages 3.30 V to 4.00 V. -/
def battPercent (cfg : WireConfig) (cv : Nat) : Nat :=
  if cv ≤ 330 then cfg.battPct[0]
  else if h : cv < 400 then cfg.battPct[cv - 330]'(by omega)
  else cfg.battPct[70]

/-! ### Reset and taking the next input -/

/-- Asserting the reset input (70_reset_and_hazards.md R230): `buf` keeps its bytes, and there is no
response. -/
def State.assertReset (s : State) : State :=
  { s with phase := .seekHeading, cursor := 0, resp := none }

/-- What taking the next input gives. -/
inductive Fetched where
  /-- an instruction to run, and the state to run it in -/
  | run (i : Instr) (s : State)
  /-- the step is complete without an instruction -/
  | done (s : State)
  /-- the model has no meaning for it -/
  | stop (r : Refusal)
  deriving DecidableEq, Repr

/-- An input in the state it has been taken from. A request word that decodes to nothing raises
ILLEGAL_REQUEST (60_exceptions.md R202); a frame that is none raises UNRECOGNIZED_FRAME (R122); a
builder is called by name, and no command is decoded (30_encoding.md R74). -/
def State.take (s : State) : Input → Fetched
  | .request w d =>
    match decodeRequest w d with
    | .accepted i => .run i s
    | .rejected _ => .done (s.respond (.error (.illegalRequest w)))
  | .frame F =>
    match decodeFrame s.cfg F with
    | .accepted i => .run i s
    | .rejected _ => .done (s.respond (.error (.unrecognizedFrame F)))
  | .builder b => .run b.instr s
  | .reset => .done s.assertReset

/-- With an ill-formed WireConfig the run is refused as a whole (00_scope.md R8, 60_exceptions.md R204). -/
def State.ifConfigured (s : State) (f : Fetched) : Fetched :=
  if s.cfg.wf = true then f else .stop .illFormedConfig

/-- Taking the oldest input. With nothing issued the block holds its state (R215), and a step that
answers nothing has no response (R32). -/
def State.fetch (s : State) : Fetched :=
  match s.pending with
  | [] => s.ifConfigured (.done { s with resp := none })
  | x :: rest => s.ifConfigured (State.take { s with pending := rest, resp := none } x)

/-- The input by which the host has the block run the row that `f` matches: a request or a frame goes in
as it is; five bytes stand for a call of the builder that emits them, and bytes that no builder emits
for no input (log entries 8 and 9). -/
def formInputs (cfg : WireConfig) : RawForm → List Input
  | .request w d => [.request w d]
  | .frame F => [.frame F]
  | .command C =>
    match matchCommand cfg C with
    | .accepted b => [.builder b]
    | .rejected _ => []

end Sys2Proof.Machine
end

