-- ==== Sys2Proof/Machine/CommandEncoder.lean ====
section
/-! DEFINITION. The CommandEncoder: the ENC_* requests (42_encoder.md R160 to R172). None reads or
writes phase, cursor or buf (10_state.md R25). -/

namespace Sys2Proof.Machine

open Sys2Proof

/-- ENC_SAVE (R160). -/
def execEncSave (s : State) : Result := s.build s.cfg.cmdSave s.cfg.argSave 0#8

/-- ENC_RESTORE (R161). -/
def execEncRestore (s : State) : Result := s.build s.cfg.cmdSave s.cfg.argRestore 0#8

/-- ENC_CAL_ACC (R162). -/
def execEncCalAcc (s : State) : Result := s.build s.cfg.cmdCal s.cfg.argCalAcc 0#8

/-- ENC_CAL_MAG (R163). -/
def execEncCalMag (s : State) : Result := s.build s.cfg.cmdCal s.cfg.argCalMag 0#8

/-- ENC_CAL_QUIT (R164). -/
def execEncCalQuit (s : State) : Result := s.build s.cfg.cmdCal s.cfg.argCalQuit 0#8

/-- ENC_SET_RATE rate (R165). -/
def execEncSetRate (rate : Byte) (s : State) : Result := s.buildRate rate

/-- ENC_READ_REG reg (R166). -/
def execEncReadReg (reg : Byte) (s : State) : Result := s.build s.cfg.cmdRead reg 0#8

/-- ENC_TIME_YM yy, mon (R167). -/
def execEncTimeYm (yy mon : Byte) (s : State) : Result := s.build s.cfg.cmdTimeYm yy mon

/-- ENC_TIME_DH day, hour (R168). -/
def execEncTimeDh (day hour : Byte) (s : State) : Result := s.build s.cfg.cmdTimeDh day hour

/-- ENC_TIME_MS min, sec (R169). -/
def execEncTimeMs (min sec : Byte) (s : State) : Result := s.build s.cfg.cmdTimeMs min sec

/-- ENC_TIME_MSEC ms (R170): low byte at offset 3. -/
def execEncTimeMsec (ms : HalfWord) (s : State) : Result := s.build s.cfg.cmdTimeMsec ms.lo ms.hi

/-- ENC_FW_UPDATE (R172). -/
def execEncFwUpdate (s : State) : Result := s.buildFwUpdate

end Sys2Proof.Machine
end

