-- ==== Sys2Proof/Machine/CommandForms.lean ====
section
/-! DEFINITION. The CMD rows: the CommandEncoder's builder operation for each command of
30_encoding.md R69 (42_encoder.md, section 0 and R159 to R172), called directly (log entry 8). -/

namespace Sys2Proof.Machine

open Sys2Proof

/-- CMD.SAVE (R69, R160). -/
def execCmdSave (s : State) : Result := s.build s.cfg.cmdSave s.cfg.argSave 0#8

/-- CMD.RESTORE (R69, R161). -/
def execCmdRestore (s : State) : Result := s.build s.cfg.cmdSave s.cfg.argRestore 0#8

/-- CMD.CAL_ACC (R69, R162). -/
def execCmdCalAcc (s : State) : Result := s.build s.cfg.cmdCal s.cfg.argCalAcc 0#8

/-- CMD.CAL_MAG (R69, R163). -/
def execCmdCalMag (s : State) : Result := s.build s.cfg.cmdCal s.cfg.argCalMag 0#8

/-- CMD.CAL_QUIT (R69, R164). -/
def execCmdCalQuit (s : State) : Result := s.build s.cfg.cmdCal s.cfg.argCalQuit 0#8

/-- CMD.SET_RATE (R69, R165): ARGL is a rate code from RATE_TABLE, any other is a bad argument. -/
def execCmdSetRate (rate : Byte) (s : State) : Result := s.buildRate rate

/-- CMD.READ_REG (R69, R166). -/
def execCmdReadReg (reg : Byte) (s : State) : Result := s.build s.cfg.cmdRead reg 0#8

/-- CMD.TIME_YM (R69, R167). -/
def execCmdTimeYm (yy mon : Byte) (s : State) : Result := s.build s.cfg.cmdTimeYm yy mon

/-- CMD.TIME_DH (R69, R168). -/
def execCmdTimeDh (day hour : Byte) (s : State) : Result := s.build s.cfg.cmdTimeDh day hour

/-- CMD.TIME_MS (R69, R169). -/
def execCmdTimeMs (min sec : Byte) (s : State) : Result := s.build s.cfg.cmdTimeMs min sec

/-- CMD.TIME_MSEC (R69, R170). -/
def execCmdTimeMsec (ms : HalfWord) (s : State) : Result := s.build s.cfg.cmdTimeMsec ms.lo ms.hi

/-- CMD.FW_UPDATE (R69, R172). -/
def execCmdFwUpdate (s : State) : Result := s.buildFwUpdate

end Sys2Proof.Machine
end

