-- ==== Sys2Proof/Machine/Feed.lean ====
section
/-! DEFINITION. The StreamSynchronizer: FEED (40_synchronizer.md R100 to R107). -/

namespace Sys2Proof.Machine

open Sys2Proof

/-- SeekHeading (R101): drop bytes until a heading comes. -/
def feedSeekHeading (b : Byte) (s : State) : Result :=
  if b = heading then
    .next ({ s with buf := s.buf.write 0 b, cursor := 1, phase := .awaitFlag }.respond .noFrame)
  else .next (s.respond .noFrame)

/-- AwaitFlag (R102): the byte goes to offset 1 whatever it is; a second heading restarts the frame on
itself, and any other invalid flag drops the candidate. UNVERIFIED against a device: log entry 19. -/
def feedAwaitFlag (b : Byte) (s : State) : Result :=
  let stored := s.buf.write 1 b
  if b = flagStream then
    .next ({ s with buf := stored, cursor := 2, phase := .collecting }.respond .noFrame)
  else if b = flagReg then
    .next ({ s with buf := stored, cursor := 2, phase := .awaitRegister }.respond .noFrame)
  else if b = heading then
    .next ({ s with buf := stored.write 0 b, cursor := 1, phase := .awaitFlag }.respond .noFrame)
  else
    .next ({ s with buf := stored, cursor := 0, phase := .seekHeading }.respond .noFrame)

/-- AwaitRegister (R103): every byte is stored at offset 2. -/
def feedAwaitRegister (b : Byte) (s : State) : Result :=
  .next ({ s with buf := s.buf.write 2 b, cursor := 3, phase := .collecting }.respond .noFrame)

/-- The response of the FEED that completes F (R106). -/
def completion (cfg : WireConfig) (F : Frame) : Response :=
  match decodeSample cfg F with
  | .accepted S => .ok (.frame F S)
  | .rejected _ => .error (.unrecognizedFrame F)

/-- The last byte (R105): F is taken as a value, the synchronizer returns to SeekHeading, and F is
decoded, all in this step. `buf` keeps its bytes. -/
def emitFrame (s : State) : Result :=
  match s.buf.frame with
  | none => .fault .unknownByte
  | some F =>
    .next ({ s with cursor := 0, phase := .seekHeading }.respond (completion s.cfg F))

/-- Collecting (R104, R105): no byte value is interpreted (R107). -/
def feedCollecting (b : Byte) (s : State) : Result :=
  let stored := { s with buf := s.buf.write s.cursor b }
  if h : s.cursor.val + 1 < 20 then
    .next ({ stored with cursor := ⟨s.cursor.val + 1, h⟩ }.respond .noFrame)
  else emitFrame stored

/-- FEED b (R100). -/
def execFeed (b : Byte) (s : State) : Result :=
  match s.phase with
  | .seekHeading => feedSeekHeading b s
  | .awaitFlag => feedAwaitFlag b s
  | .awaitRegister => feedAwaitRegister b s
  | .collecting => feedCollecting b s

end Sys2Proof.Machine
end

