-- ==== Sys2Proof/Machine/FrameDecoder.lean ====
section
/-! DEFINITION. The FrameDecoder: DECODE and the eight frame kinds (41_decoder.md R120 to R139). None
reads or writes phase, cursor or buf (10_state.md R25). -/

namespace Sys2Proof.Machine

open Sys2Proof

/-- DECODE F (R120 to R124). -/
def execDecode (F : Frame) (s : State) : Result :=
  match decodeSample s.cfg F with
  | .accepted S => s.ok (.sample S)
  | .rejected _ => s.raise (.unrecognizedFrame F)

/-- FRAME.STREAMED (R125). -/
def execFrameStreamed (p : StreamFields) (s : State) : Result := s.ok (.sample (streamedSample p))

/-- FRAME.MAG (R132, R130). -/
def execFrameMag (e : EchoFields) (s : State) : Result :=
  s.echo e.regHi (echoFrame s.cfg.regMag e) (magSample e)

/-- FRAME.QUAT (R133, R130). -/
def execFrameQuat (e : EchoFields) (s : State) : Result :=
  s.echo e.regHi (echoFrame s.cfg.regQuat e) (quatSample e)

/-- FRAME.TEMP (R134, R130). -/
def execFrameTemp (e : EchoFields) (s : State) : Result :=
  s.echo e.regHi (echoFrame s.cfg.regTemp e) (tempSample e)

/-- FRAME.BATT (R135, R130). -/
def execFrameBatt (e : EchoFields) (s : State) : Result :=
  s.echo e.regHi (echoFrame s.cfg.regBatt e) (battSample e)

/-- FRAME.VERSION (R136, R130). -/
def execFrameVersion (e : EchoFields) (s : State) : Result :=
  s.echo e.regHi (echoFrame s.cfg.regVersion e) (versionSample e)

/-- FRAME.DATETIME (R137, R130). -/
def execFrameDateTime (d : DateTimeFields) (s : State) : Result :=
  s.echo d.regHi (dateTimeFrame s.cfg.regDateTime d) (dateTimeSample s.cfg d)

/-- FRAME.BURST (R139, R130). -/
def execFrameBurst (reg : Byte) (e : EchoFields) (s : State) : Result :=
  s.echo e.regHi (echoFrame reg e) (burstSample reg e)

end Sys2Proof.Machine
end

