-- ==== Sys2Proof/Machine/ScaleTable.lean ====
section
/-! DEFINITION. The ScaleTable lookups: LUT_* (43_scale_table.md R191 to R194). None reads or writes
phase, cursor or buf (10_state.md R25). -/

namespace Sys2Proof.Machine

open Sys2Proof

/-- LUT_BATT cv (R194). -/
def execLutBatt (cv : HalfWord) (s : State) : Result := s.ok (.value (battPercent s.cfg cv.toNat))

/-- LUT_RATE_HZ rate (R191). -/
def execLutRateHz (rate : Byte) (s : State) : Result :=
  match rateHz s.cfg.rateTable rate with
  | some f => s.ok (.value f)
  | none => s.raise (.badArgument rate)

/-- LUT_HZ_RATE mhz (R192). A well-formed RATE_TABLE has entries (R8), so the refusal is out of every
run's reach. -/
def execLutHzRate (mhz : BitVec 24) (s : State) : Result :=
  match nearestRate mhz.toNat s.cfg.rateTable with
  | some e => s.ok (.value e.1.toNat)
  | none => .refused .illFormedConfig

end Sys2Proof.Machine
end

