-- ==== Sys2Proof/Machine/Dispatch.lean ====
section
/-! DEFINITION. The dispatch: one arm for each constructor of Instr. -/

namespace Sys2Proof.Machine

open Sys2Proof

/-- One instruction, in a state whose input it has been taken from. -/
def exec (i : Instr) (s : State) : Host.Outcome State Fault Refusal :=
  match i with
  | .frameStreamed p => Sys2Proof.Machine.execFrameStreamed p s
  | .frameMag e => Sys2Proof.Machine.execFrameMag e s
  | .frameQuat e => Sys2Proof.Machine.execFrameQuat e s
  | .frameTemp e => Sys2Proof.Machine.execFrameTemp e s
  | .frameBatt e => Sys2Proof.Machine.execFrameBatt e s
  | .frameVersion e => Sys2Proof.Machine.execFrameVersion e s
  | .frameDateTime d => Sys2Proof.Machine.execFrameDateTime d s
  | .frameBurst reg e => Sys2Proof.Machine.execFrameBurst reg e s
  | .cmdSave => Sys2Proof.Machine.execCmdSave s
  | .cmdRestore => Sys2Proof.Machine.execCmdRestore s
  | .cmdCalAcc => Sys2Proof.Machine.execCmdCalAcc s
  | .cmdCalMag => Sys2Proof.Machine.execCmdCalMag s
  | .cmdCalQuit => Sys2Proof.Machine.execCmdCalQuit s
  | .cmdSetRate rate => Sys2Proof.Machine.execCmdSetRate rate s
  | .cmdReadReg reg => Sys2Proof.Machine.execCmdReadReg reg s
  | .cmdTimeYm yy mon => Sys2Proof.Machine.execCmdTimeYm yy mon s
  | .cmdTimeDh day hour => Sys2Proof.Machine.execCmdTimeDh day hour s
  | .cmdTimeMs min sec => Sys2Proof.Machine.execCmdTimeMs min sec s
  | .cmdTimeMsec ms => Sys2Proof.Machine.execCmdTimeMsec ms s
  | .cmdFwUpdate => Sys2Proof.Machine.execCmdFwUpdate s
  | .feed b => Sys2Proof.Machine.execFeed b s
  | .decode F => Sys2Proof.Machine.execDecode F s
  | .encSave => Sys2Proof.Machine.execEncSave s
  | .encRestore => Sys2Proof.Machine.execEncRestore s
  | .encCalAcc => Sys2Proof.Machine.execEncCalAcc s
  | .encCalMag => Sys2Proof.Machine.execEncCalMag s
  | .encCalQuit => Sys2Proof.Machine.execEncCalQuit s
  | .encSetRate rate => Sys2Proof.Machine.execEncSetRate rate s
  | .encReadReg reg => Sys2Proof.Machine.execEncReadReg reg s
  | .encTimeYm yy mon => Sys2Proof.Machine.execEncTimeYm yy mon s
  | .encTimeDh day hour => Sys2Proof.Machine.execEncTimeDh day hour s
  | .encTimeMs min sec => Sys2Proof.Machine.execEncTimeMs min sec s
  | .encTimeMsec ms => Sys2Proof.Machine.execEncTimeMsec ms s
  | .encFwUpdate => Sys2Proof.Machine.execEncFwUpdate s
  | .lutBatt cv => Sys2Proof.Machine.execLutBatt cv s
  | .lutRateHz rate => Sys2Proof.Machine.execLutRateHz rate s
  | .lutHzRate mhz => Sys2Proof.Machine.execLutHzRate mhz s

end Sys2Proof.Machine
end

