-- ==== Sys2Proof/Machine/Step.lean ====
section
/-! DEFINITION. One step: take the oldest input and run it (20_memory.md R48). -/

namespace Sys2Proof.Machine

open Sys2Proof

/-- One step of the block: one input, handled atomically (R48, 70_reset_and_hazards.md R248). -/
def step (s : State) : Host.Outcome State Fault Refusal :=
  match s.fetch with
  | .run i t => exec i t
  | .done t => .next t
  | .stop r => .refused r

/-- The state in which the next step runs the row that the table bits `w` match: the host issues that
row's input next (log entry 25). -/
def State.withFetchWord (s : State) (nbits w : Nat) : State :=
  { s with pending := formInputs s.cfg (tableForm nbits w) ++ s.pending }

end Sys2Proof.Machine
end

