-- ==== Sys2Proof/Machine/Binary32.lean ====
section
/-! DEFINITION. The binary32 float of a physical value: the exact rational rounded to nearest, ties to
even (00_scope.md R13, D13). The format is IEEE 754's (K6; log entry 14). -/

namespace Sys2Proof.Machine

open Sys2Proof

/-- a / b rounded to the nearest integer, ties to even. -/
def roundHalfEven (a b : Nat) : Nat :=
  let q := a / b
  let r := a % b
  if 2 * r < b then q
  else if b < 2 * r then q + 1
  else if q % 2 = 0 then q else q + 1

/-- The e with 2^e ≤ n / d < 2^(e+1), for positive n and d. -/
def floorLog2 (n d : Nat) : Int :=
  let e : Int := (Nat.log2 n : Int) - (Nat.log2 d : Int)
  if d * 2 ^ e.toNat ≤ n * 2 ^ (-e).toNat then e else e - 1

/-- The bits of n / d as a non-negative binary32: exponent field and fraction are one number, so that a
fraction that rounds up to 2^24 carries into the exponent, and a value too large gives infinity. -/
def magnitude32 (n d : Nat) : Nat :=
  if n = 0 then 0
  else
    let e := max (floorLog2 n d) (-126)
    let m := roundHalfEven (n * 2 ^ (23 - e).toNat) (d * 2 ^ (e - 23).toNat)
    min ((e + 126).toNat * 2 ^ 23 + m) 0x7F800000

/-- A value as binary32 bits; zero is positive zero. -/
def Fixed.binary32 (q : Fixed) : BitVec 32 :=
  BitVec.ofNat 32 ((if q.num < 0 then 2 ^ 31 else 0) + magnitude32 q.num.natAbs q.den)

/-- The value of finite binary32 bits, as a rational. -/
def binary32Value (b : BitVec 32) : ℚ :=
  let field : Nat := b.toNat / 2 ^ 23 % 256
  let frac : Nat := b.toNat % 2 ^ 23
  let m : Nat := if field = 0 then frac else frac + 2 ^ 23
  let e : Int := (if field = 0 then 1 else (field : Int)) - 150
  (if b.msb = true then -1 else 1) * (m : ℚ) * (2 : ℚ) ^ e

/-- The binary32 floats of a triple. -/
def Vec3.floats (v : Vec3) : List (BitVec 32) := [v.x.binary32, v.y.binary32, v.z.binary32]

/-- The source's floats of a sample, in the order of R121's fields; a kind whose fields are not
physical values has none. A magnetic count is its own float (C6). -/
def Sample.floats : Sample → List (BitVec 32)
  | .streamed acc gyro angle => acc.floats ++ gyro.floats ++ angle.floats
  | .magneticField x y z => [Fixed.binary32 ⟨x, 1⟩, Fixed.binary32 ⟨y, 1⟩, Fixed.binary32 ⟨z, 1⟩]
  | .quaternion q0 q1 q2 q3 => [q0.binary32, q1.binary32, q2.binary32, q3.binary32]
  | .temperature t => [t.binary32]
  | .batteryVoltage v => [v.binary32]
  | .firmwareVersion _ => []
  | .dateTime _ => []
  | .registerBurst _ _ => []

end Sys2Proof.Machine
end

