-- ==== Sys2Proof/Machine/Flags.lean ====
section
/-! DEFINITION. The block has no status flags and no condition codes (10_state.md R26). What plays
their part is the 3-bit status code each response carries (30_encoding.md R67). -/

namespace Sys2Proof.Machine

/-- The status code of an error (60_exceptions.md R201). -/
def BlockError.status : BlockError → BitVec 3
  | .unrecognizedFrame _ => 2#3
  | .badArgument _ => 3#3
  | .illegalRequest _ => 4#3

/-- The status code of a response (R67). -/
def Response.status : Response → BitVec 3
  | .ok _ => 0#3
  | .noFrame => 1#3
  | .error e => e.status

end Sys2Proof.Machine
end

