-- ==== Sys2Proof/Machine/Render.lean ====
section
/-! DEFINITION. The timestamp string of a DateTime sample (41_decoder.md R138). It is a function on the
sample and no request of its own. -/

namespace Sys2Proof.Machine

open Sys2Proof

/-- The decimal digit of a number below ten. -/
def digitChar (d : Nat) : Char := Char.ofNat (48 + d)

/-- Decimal digits, most significant first; `fuel` bounds their number. -/
def decimalDigits : Nat → Nat → List Char
  | 0, _ => []
  | fuel + 1, n =>
    if n < 10 then [digitChar n] else decimalDigits fuel (n / 10) ++ [digitChar (n % 10)]

/-- R138's `dec(n, w)`: decimal digits left-padded with '0' to at least w characters, never
truncated. -/
def dec (n w : Nat) : List Char :=
  let ds := decimalDigits (n + 1) n
  List.replicate (w - ds.length) '0' ++ ds

/-- R138's `render`, as characters. -/
def renderChars (t : DateTime) : List Char :=
  dec t.year 4 ++ ['-'] ++ dec t.month.toNat 2 ++ ['-'] ++ dec t.day.toNat 2 ++ [' ']
    ++ dec t.hour.toNat 2 ++ [':'] ++ dec t.minute.toNat 2 ++ [':'] ++ dec t.second.toNat 2 ++ ['.']
    ++ dec t.millisecond.toNat 3

/-- R138's `render`. -/
def render (t : DateTime) : String := String.ofList (renderChars t)

end Sys2Proof.Machine
end

