-- ==== Sys2Proof/Machine/Assembler.lean ====
section
/-! DEFINITION. The request assembly language (30_encoding.md R72) and its pseudo-instructions (R73).
It is no part of the block: it names the inputs a host issues. Lexical details: log entry 22. -/

namespace Sys2Proof.Machine

open Sys2Proof

/-! ### What a line stands for -/

/-- The input that issues a request; R72 has lines for requests alone. -/
def issue (cfg : WireConfig) (i : Instr) : List Input :=
  match encode cfg i with
  | some (.request w d) => [.request w d]
  | _ => []

/-- `FEED b` as an input. -/
def feedInput (b : Byte) : Input := .request (wordOfByte 0x01#8 b) 0

/-- `FEEDS b0 b1 … bn-1` (R73): one FEED for each byte, in order. -/
def feeds (bs : List Byte) : List Input := bs.map feedInput

/-- `SET_TIME yy, mon, day, hour, min, sec, ms` (R73, 42_encoder.md R171): the four commands in
sequence. -/
def setTime (cfg : WireConfig) (yy mon day hour min sec : Byte) (ms : HalfWord) : List Input :=
  issue cfg (.encTimeYm yy mon) ++ issue cfg (.encTimeDh day hour) ++ issue cfg (.encTimeMs min sec)
    ++ issue cfg (.encTimeMsec ms)

/-- `ENC_SET_RATE_HZ mhz` (R73): LUT_HZ_RATE mhz, then ENC_SET_RATE of the rate code it returns. -/
def setRateHz (cfg : WireConfig) (mhz : BitVec 24) : List Input :=
  issue cfg (.lutHzRate mhz) ++
    (match nearestRate mhz.toNat cfg.rateTable with
     | some e => issue cfg (.encSetRate e.1)
     | none => [])

/-- `.word w` (R72): the request word as given, with DEC_IN all zero. -/
def rawWord (w : ReqWord) : List Input := [.request w 0]

/-! ### Reading a line -/

/-- The pieces of a text between characters that satisfy `sep`. -/
def pieces (sep : Char → Bool) : List Char → List (List Char)
  | [] => [[]]
  | c :: cs =>
    if sep c = true then [] :: pieces sep cs
    else
      match pieces sep cs with
      | [] => [[c]]
      | w :: ws => (c :: w) :: ws

/-- The words of a text, separated by spaces and tabs. -/
def textWords (l : List Char) : List (List Char) :=
  (pieces (fun c => c == ' ' || c == '\t') l).filter (fun w => !w.isEmpty)

/-- A digit's value in a base up to 16. -/
def digitValue (base : Nat) (c : Char) : Option Nat :=
  let k := c.toNat
  let v := if 48 ≤ k ∧ k ≤ 57 then k - 48
    else if 65 ≤ k ∧ k ≤ 70 then k - 55
    else if 97 ≤ k ∧ k ≤ 102 then k - 87
    else 16
  if v < base then some v else none

/-- The number a non-empty run of digits spells. -/
def digitsValue (base : Nat) : Nat → List Char → Option Nat
  | acc, [] => some acc
  | acc, c :: cs =>
    match digitValue base c with
    | some v => digitsValue base (acc * base + v) cs
    | none => none

/-- R72's numbers: decimal, or hex with `0x`. -/
def number : List Char → Option Nat
  | [] => none
  | '0' :: 'x' :: d :: ds => digitsValue 16 0 (d :: ds)
  | d :: ds => digitsValue 10 0 (d :: ds)

/-- A number of at most w bits. -/
def operand (w : Nat) (l : List Char) : Option (BitVec w) :=
  match number l with
  | some n => if n < 2 ^ w then some (BitVec.ofNat w n) else none
  | none => none

/-- A byte written as one or two hex digits without `0x`. -/
def hexByte : List Char → Option Byte
  | [a] => (digitsValue 16 0 [a]).map (BitVec.ofNat 8)
  | [a, b] => (digitsValue 16 0 [a, b]).map (BitVec.ofNat 8)
  | _ => none

/-- Each element's answer, if all have one. -/
def allSome {α : Type} : List (Option α) → Option (List α)
  | [] => some []
  | none :: _ => none
  | some a :: rest => (allSome rest).map (a :: ·)

/-- The operands after a mnemonic, separated by commas, each one word. -/
def commaOperands (l : List Char) : Option (List (List Char)) :=
  if (textWords l).isEmpty = true then some []
  else allSome ((pieces (· == ',') l).map fun p =>
    match textWords p with
    | [w] => some w
    | _ => none)

/-- The requests a mnemonic and its operands stand for: R72's forms and R73's pseudo-instructions with
operands separated by commas. -/
def assembleCommas (cfg : WireConfig) (m : String) (ops : List (List Char)) : Option (List Input) :=
  match ops with
  | [] =>
    if m = "ENC_SAVE" then some (issue cfg .encSave)
    else if m = "ENC_RESTORE" then some (issue cfg .encRestore)
    else if m = "ENC_CAL_ACC" then some (issue cfg .encCalAcc)
    else if m = "ENC_CAL_MAG" then some (issue cfg .encCalMag)
    else if m = "ENC_CAL_QUIT" then some (issue cfg .encCalQuit)
    else if m = "ENC_FW_UPDATE" then some (issue cfg .encFwUpdate)
    else if m = "RESET" then some [.reset]
    else none
  | [a] =>
    if m = "FEED" then (operand 8 a).map fun b => issue cfg (.feed b)
    else if m = "ENC_SET_RATE" then (operand 8 a).map fun b => issue cfg (.encSetRate b)
    else if m = "ENC_READ_REG" then (operand 8 a).map fun b => issue cfg (.encReadReg b)
    else if m = "ENC_TIME_MSEC" then (operand 16 a).map fun v => issue cfg (.encTimeMsec v)
    else if m = "LUT_BATT" then (operand 16 a).map fun v => issue cfg (.lutBatt v)
    else if m = "LUT_RATE_HZ" then (operand 8 a).map fun b => issue cfg (.lutRateHz b)
    else if m = "LUT_HZ_RATE" then (operand 24 a).map fun v => issue cfg (.lutHzRate v)
    else if m = "ENC_SET_RATE_HZ" then (operand 24 a).map fun v => setRateHz cfg v
    else if m = ".word" then (operand 32 a).map rawWord
    else none
  | [a, b] =>
    match operand 8 a, operand 8 b with
    | some x, some y =>
      if m = "ENC_TIME_YM" then some (issue cfg (.encTimeYm x y))
      else if m = "ENC_TIME_DH" then some (issue cfg (.encTimeDh x y))
      else if m = "ENC_TIME_MS" then some (issue cfg (.encTimeMs x y))
      else none
    | _, _ => none
  | [a, b, c, d, e, f, g] =>
    match allSome [operand 8 a, operand 8 b, operand 8 c, operand 8 d, operand 8 e, operand 8 f],
      operand 16 g with
    | some [yy, mon, day, hour, min, sec], some ms =>
      if m = "SET_TIME" then some (setTime cfg yy mon day hour min sec ms) else none
    | _, _ => none
  | _ => none

/-- One line of assembly as the inputs it stands for, in order; none if it is not a line of R72. -/
def assembleLine (cfg : WireConfig) (line : String) : Option (List Input) :=
  let code := line.toList.takeWhile (· != ';')
  match textWords code with
  | [] => some []
  | w :: ws =>
    let m := String.ofList w
    if m = "FEEDS" then (allSome (ws.map hexByte)).map feeds
    else if m = "DECODE" then
      ((allSome (ws.map hexByte)).bind frameOfList).map fun F => issue cfg (.decode F)
    else
      let rest := (code.dropWhile (fun c => c == ' ' || c == '\t')).drop w.length
      (commaOperands rest).bind (assembleCommas cfg m)

/-- A program: its lines' inputs in order (R72). -/
def assemble (cfg : WireConfig) (lines : List String) : Option (List Input) :=
  (allSome (lines.map (assembleLine cfg))).map List.flatten

end Sys2Proof.Machine
end

