-- ==== Sys2Proof/Safety.lean ====
section
/-! DEFINITION. What counts as a good state and a safe run: the phase invariant (10_state.md R23), the
bytes the synchronizer may rely on (R30), and what a host observes of a run. -/

namespace Sys2Proof.Machine

open Sys2Proof

/-- R23's table: the cursor and the bytes each phase fixes. -/
def State.PhaseInv (s : State) : Prop :=
  match s.phase with
  | .seekHeading => s.cursor.val = 0
  | .awaitFlag => s.cursor.val = 1 ∧ s.buf.read 0 = some heading
  | .awaitRegister =>
    s.cursor.val = 2 ∧ s.buf.read 0 = some heading ∧ s.buf.read 1 = some flagReg
  | .collecting =>
    2 ≤ s.cursor.val ∧ s.buf.read 0 = some heading
      ∧ (s.buf.read 1 = some flagStream ∨ s.buf.read 1 = some flagReg)
      ∧ (s.cursor.val = 2 → s.buf.read 1 = some flagStream)

/-- Every byte below the cursor has been written (R30). -/
def State.Known (s : State) : Prop := ∀ o, o < s.cursor.val → (s.buf.read o).isSome = true

/-- The invariant every run keeps: R23's phase invariant, the known bytes, and the frame space's
canonical form. -/
def State.Inv (s : State) : Prop := s.buf.wf = true ∧ s.PhaseInv ∧ s.Known

/-- A step that does not end in a fault. -/
def Result.noFault : Result → Prop
  | .fault _ => False
  | _ => True

/-- k steps, up to the first stop. -/
def run : Nat → State → Result
  | 0, s => .next s
  | k + 1, s =>
    match step s with
    | .next t => run k t
    | .fault r => .fault r
    | .refused r => .refused r

/-- The responses of the next k steps, oldest first, up to a stop; `none` where a step had none. -/
def observe : Nat → State → List (Option Response)
  | 0, _ => []
  | k + 1, s =>
    match step s with
    | .next t => t.resp :: observe k t
    | _ => []

/-- The three pieces of architectural state (R20). -/
def State.arch (s : State) : Phase × Fin 20 × Memory := (s.phase, s.cursor, s.buf)

/-- The offsets of `buf` that FEED b stores to (40_synchronizer.md R101 to R105). -/
def feedStores (s : State) (b : Byte) : List Nat :=
  match s.phase with
  | .seekHeading => if b = heading then [0] else []
  | .awaitFlag => if b = heading then [0, 1] else [1]
  | .awaitRegister => [2]
  | .collecting => [s.cursor.val]

/-- The offsets at which a kind's rule reads a field of the payload (41_decoder.md R125 to R139). -/
def readOffsets : FrameKind → List Nat
  | .streamed => [2, 3, 4, 5, 6, 7, 8, 9, 10, 11, 12, 13, 14, 15, 16, 17, 18, 19]
  | .mag => [4, 5, 6, 7, 8, 9]
  | .quat => [4, 5, 6, 7, 8, 9, 10, 11]
  | .temp => [4, 5]
  | .batt => [4, 5]
  | .version => [4, 5]
  | .dateTime => [4, 5, 6, 7, 8, 9, 10, 11]
  | .burst => [4, 5, 6, 7, 8, 9, 10, 11, 12, 13, 14, 15, 16, 17, 18, 19]

/-- Each assigned op of 30_encoding.md R66 with the reserved bits of its word. -/
def assignedOps : List (Byte × ReqWord) :=
  [(0x01#8, 0x00FFFF00#32), (0x02#8, 0x00FFFFFF#32), (0x10#8, 0x00FFFFFF#32),
   (0x11#8, 0x00FFFFFF#32), (0x12#8, 0x00FFFFFF#32), (0x13#8, 0x00FFFFFF#32),
   (0x14#8, 0x00FFFFFF#32), (0x15#8, 0x00FFFF00#32), (0x16#8, 0x00FFFF00#32),
   (0x17#8, 0x00FF0000#32), (0x18#8, 0x00FF0000#32), (0x19#8, 0x00FF0000#32),
   (0x1A#8, 0x00FF0000#32), (0x1B#8, 0x00FFFFFF#32), (0x20#8, 0x00FF0000#32),
   (0x21#8, 0x00FFFF00#32), (0x22#8, 0x00000000#32)]

/-- A response that completes a frame: a frame with its sample, or an unrecognized one
(40_synchronizer.md R106). -/
def Response.completes : Response → Bool
  | .ok (.frame _ _) => true
  | .error (.unrecognizedFrame _) => true
  | _ => false

/-- How many of the observed responses complete a frame. -/
def completions (l : List (Option Response)) : Nat :=
  l.countP fun r => match r with
    | some r => r.completes
    | none => false

/-- The frames among the observed responses, with their samples, in order. -/
def emitted (l : List (Option Response)) : List (Frame × Sample) :=
  l.filterMap fun r => match r with
    | some (.ok (.frame F S)) => some (F, S)
    | _ => none

/-- An input that is a FEED request. -/
def Input.isFeed : Input → Bool
  | .request w d => match decodeRequest w d with
    | .accepted (.feed _) => true
    | _ => false
  | _ => false

/-- An input that is a request word. -/
def Input.isRequest : Input → Bool
  | .request _ _ => true
  | _ => false

end Sys2Proof.Machine
end

