-- ==== Sys2Proof/Certificates/Slice0/Obligations.lean ====
section
/-! DEFINITION. The statements for the provers, from the numbered rules of spec/. -/

open Sys2Proof Sys2Proof.Machine

/-! ### Encoding -/

/-- A few words, written out from 30_encoding.md's tables, decode to what they spell. The four request
words are R66's. That register 0x40 is REG_TEMP is a default that R7 takes from general knowledge
(PRESUMED, log entry 2). The last clause decodes nothing, as the block never decodes a command (R74): the
five bytes match the CMD row that they are written from. -/
def Obligations.SampleWordsDecode : Prop :=
  (∀ d, decodeRequest 0x01000055#32 d = .accepted (.feed 0x55#8))
  ∧ (∀ d, decodeRequest 0x17000B18#32 d = .accepted (.encTimeYm 24#8 11#8))
  ∧ (∀ d, decodeRequest 0x1A0003E7#32 d = .accepted (.encTimeMsec 999#16))
  ∧ (∀ d, decodeRequest 0x220186A0#32 d = .accepted (.lutHzRate 100000#24))
  ∧ decodeFrame WireConfig.default
      #v[0x55, 0x71, 0x40, 0x00, 0xE6, 0x09, 0, 0, 0, 0, 0, 0, 0, 0, 0, 0, 0, 0, 0, 0]
      = .accepted (.frameTemp ⟨0#8, 2534#16, 0, 0, 0, 0, 0, 0, 0⟩)
  ∧ matchForm WireConfig.default (.command #v[0xFF, 0xAA, 0x03, 0x09, 0x00])
      = .accepted (.cmdSetRate 0x09#8)

/-- Decoding an encoded host request gives the request back, every operand and the whole DEC_IN frame
included, under every WireConfig (R66). -/
def Obligations.RequestsDecodeToThemselves : Prop :=
  ∀ (cfg : WireConfig) (i : Instr), i.format = .hreq →
    ∃ w d, encode cfg i = some (.request w d) ∧ decodeRequest w d = .accepted i

/-- Decoding an encoded frame gives the frame instruction back, the words its kind does not read
included, under every well-formed WireConfig (R61 to R63, R68). -/
def Obligations.FramesDecodeToThemselves : Prop :=
  ∀ (cfg : WireConfig) (i : Instr), cfg.wf = true → i.wf cfg = true →
    (i.format = .frameS ∨ i.format = .frameR) →
    ∃ F, encode cfg i = some (.frame F) ∧ decodeFrame cfg F = .accepted i

/-- An encoded command matches its own row of the opcode table, every operand included, under every
WireConfig whose command rows are apart. The match reads the table; no step decodes a command (R74). How
rows that overlap are told apart is the model's choice (log entry 9). -/
def Obligations.CommandsDecodeToThemselves : Prop :=
  ∀ (cfg : WireConfig) (i : Instr), cfg.commandsApart = true → i.wf cfg = true → i.format = .cmd →
    ∃ C, encode cfg i = some (.command C) ∧ matchForm cfg (.command C) = .accepted i

/-- A request word that is accepted is the encoding of the request it decodes to: no bit of an
accepted word is dropped, nor of DEC_IN for DECODE (R66). -/
def Obligations.AcceptedRequestHasOneSpelling : Prop :=
  ∀ (cfg : WireConfig) (w : ReqWord) (d : DecIn) (i : Instr), decodeRequest w d = .accepted i →
    (∃ d', encode cfg i = some (.request w d'))
      ∧ ∀ F, i = .decode F → encode cfg i = some (.request w d)

/-- A frame that is accepted is the encoding of the instruction it decodes to (R61 to R63, R68). -/
def Obligations.AcceptedFrameHasOneSpelling : Prop :=
  ∀ (cfg : WireConfig) (F : Frame) (i : Instr), decodeFrame cfg F = .accepted i →
    encode cfg i = some (.frame F)

/-- `le16` and `sle16` (R11), and R42's agreement of a word with its two bytes. -/
def Obligations.HalfWordsAreLittleEndian : Prop :=
  ∀ (F : Frame) (o : Nat) (h : o + 1 < 20),
    u16 (F.le16 o h) = F[o].toNat + 256 * F[o + 1].toNat
      ∧ s16 (F.le16 o h)
          = if 32768 ≤ u16 (F.le16 o h) then (u16 (F.le16 o h) : Int) - 65536
            else (u16 (F.le16 o h) : Int)

/-! ### The step -/

/-- The step runs exactly the instruction that the oldest input stands for, in the state without that
input and without an older response: the request that a word decodes to, the FRAME row that a frame
handed to the decoder decodes to (log entry 7), and the CMD row of a builder called by its name (log
entry 8). -/
def Obligations.StepRunsTheDecodedInstruction : Prop :=
  ∀ (s : State) (rest : List Input), s.cfg.wf = true →
    (∀ w d i, s.pending = .request w d :: rest → decodeRequest w d = .accepted i →
      step s = exec i { s with pending := rest, resp := none })
    ∧ (∀ F i, s.pending = .frame F :: rest → decodeFrame s.cfg F = .accepted i →
      step s = exec i { s with pending := rest, resp := none })
    ∧ (∀ b, s.pending = .builder b :: rest →
      step s = exec b.instr { s with pending := rest, resp := none })

/-- R202: an unassigned op, or a reserved bit that is set, gives ILLEGAL_REQUEST with the request word
and changes nothing else. `assignedOps` lists R66's ops with their reserved bits. -/
def Obligations.IllegalRequestIsAnsweredAndChangesNothing : Prop :=
  ∀ (s : State) (w : ReqWord) (d : DecIn) (rest : List Input),
    s.cfg.wf = true → s.pending = .request w d :: rest →
    (∀ e ∈ assignedOps, reqOp w = e.1 → w &&& e.2 ≠ 0#32) →
      step s = .next { s with pending := rest, resp := some (.error (.illegalRequest w)) }

/-- R230: the reset input, in any state. That it takes one step is the model's choice (log entry 18). -/
def Obligations.ResetInputRestartsTheSynchronizer : Prop :=
  ∀ (s : State) (rest : List Input), s.cfg.wf = true → s.pending = .reset :: rest →
    step s = .next { s with phase := .seekHeading, cursor := 0, pending := rest, resp := none }

/-- R231: after a reset in any state the next byte fed is judged as in SeekHeading: no frame comes, and
a new frame begins exactly at a 0x55. -/
def Obligations.ResetDropsThePartialFrame : Prop :=
  ∀ (s : State) (b : Byte) (rest : List Input), s.cfg.wf = true →
    s.pending = .reset :: feedInput b :: rest →
      observe 2 s = [none, some .noFrame]
        ∧ ∃ t, run 2 s = .next t ∧ t.pending = rest
          ∧ t.phase = (if b = 0x55#8 then Phase.awaitFlag else Phase.seekHeading)
          ∧ t.cursor.val = (if b = 0x55#8 then 1 else 0)

/-- With nothing issued the block holds its state (R215). The step without an input and its empty
response are the model's choice (log entry 17). -/
def Obligations.IdleStepHoldsTheState : Prop :=
  ∀ s : State, s.cfg.wf = true → s.pending = [] → step s = .next { s with resp := none }

/-- A well-formed WireConfig is one with all that R8 lists, BATT_PCT meeting R193's conditions on every
voltage. -/
def Obligations.WellFormedConfigMeetsEveryCondition : Prop :=
  ∀ cfg : WireConfig, cfg.wf = true ↔
    ([cfg.regMag, cfg.regQuat, cfg.regTemp, cfg.regBatt, cfg.regVersion, cfg.regDateTime].Nodup
      ∧ cfg.rateTable.length = 10
      ∧ (cfg.rateTable.map Prod.fst).Nodup
      ∧ (cfg.rateTable.map Prod.snd).Nodup
      ∧ (0x09#8, 100000) ∈ cfg.rateTable
      ∧ ((∃ e ∈ cfg.rateTable, e.2 = 200) ∧ ∀ e ∈ cfg.rateTable, 200 ≤ e.2)
      ∧ ((∃ e ∈ cfg.rateTable, e.2 = 200000) ∧ ∀ e ∈ cfg.rateTable, e.2 ≤ 200000)
      ∧ (∀ cv, 400 ≤ cv → battPercent cfg cv = 100)
      ∧ (∀ cv, cv ≤ 330 → battPercent cfg cv = 0)
      ∧ (∀ c d, c ≤ d → battPercent cfg c ≤ battPercent cfg d)
      ∧ ∀ cv, battPercent cfg cv ≤ 100)

/-- R8 and R204: with an ill-formed WireConfig every step is refused. -/
def Obligations.IllFormedConfigIsRefused : Prop :=
  ∀ s : State, s.cfg.wf = false → step s = .refused .illFormedConfig

/-- R31: what reset leaves. The bytes of `buf` have no value (log entry 6), no response is pending
(R32), and the reset state is in its invariant. -/
def Obligations.ResetStateIsAsTheRulesSay : Prop :=
  State.reset.phase = .seekHeading ∧ State.reset.cursor = 0
    ∧ (∀ o, State.reset.buf.read o = none) ∧ State.reset.resp = none

/-- The reset state satisfies the invariant (R23). -/
def Obligations.ResetStateSatisfiesTheInvariant : Prop := State.reset.Inv

/-! ### FEED -/

/-- R101. -/
def Obligations.SeekHeadingWaitsForAHeading : Prop :=
  ∀ (s : State) (b : Byte), s.phase = .seekHeading →
    (b = 0x55#8 → exec (.feed b) s = .next { s with
      buf := s.buf.write 0 b, cursor := 1, phase := .awaitFlag, resp := some .noFrame })
    ∧ (b ≠ 0x55#8 → exec (.feed b) s = .next { s with resp := some .noFrame })

/-- R102: the four classes of flag byte; every byte that is no flag leaves the phase, the cursor, the
response and the bytes of `buf` but the stale one at offset 1 as SeekHeading would on that byte. The
clauses at 0x55 rest on the flag-position policy of R102, which R245 says has not been checked against a
device (UNVERIFIED, log entry 19). -/
def Obligations.AwaitFlagClassifiesTheFlag : Prop :=
  ∀ (s : State) (b : Byte), s.phase = .awaitFlag →
    (b = 0x61#8 → exec (.feed b) s = .next { s with
      buf := s.buf.write 1 b, cursor := 2, phase := .collecting, resp := some .noFrame })
    ∧ (b = 0x71#8 → exec (.feed b) s = .next { s with
      buf := s.buf.write 1 b, cursor := 2, phase := .awaitRegister, resp := some .noFrame })
    ∧ (b = 0x55#8 → exec (.feed b) s = .next { s with
      buf := (s.buf.write 1 b).write 0 b, cursor := 1, phase := .awaitFlag, resp := some .noFrame })
    ∧ (b ≠ 0x61#8 → b ≠ 0x71#8 → b ≠ 0x55#8 → exec (.feed b) s = .next { s with
      buf := s.buf.write 1 b, cursor := 0, phase := .seekHeading, resp := some .noFrame })
    ∧ (b ≠ 0x61#8 → b ≠ 0x71#8 → ∃ t u, exec (.feed b) s = .next t
      ∧ exec (.feed b) { s with phase := .seekHeading, cursor := 0 } = .next u
      ∧ t.phase = u.phase ∧ t.cursor = u.cursor ∧ t.resp = u.resp
      ∧ ∀ o, o ≠ 1 → t.buf.read o = u.buf.read o)

/-- R103. -/
def Obligations.AwaitRegisterTakesEveryByte : Prop :=
  ∀ (s : State) (b : Byte), s.phase = .awaitRegister →
    exec (.feed b) s = .next { s with
      buf := s.buf.write 2 b, cursor := 3, phase := .collecting, resp := some .noFrame }

/-- R104. -/
def Obligations.CollectingStoresEveryByte : Prop :=
  ∀ (s : State) (b : Byte) (h : s.cursor.val + 1 < 20), s.phase = .collecting →
    exec (.feed b) s = .next { s with
      buf := s.buf.write s.cursor b, cursor := ⟨s.cursor.val + 1, h⟩, resp := some .noFrame }

/-- R105 and R106: the 20th byte completes the frame F made of the 19 bytes held and the byte fed; the
synchronizer returns to SeekHeading, and the response is the frame with its sample, or the frame as
unrecognized. -/
def Obligations.LastByteEmitsTheDecodedFrame : Prop :=
  ∀ (s : State) (b : Byte) (F : Frame), s.phase = .collecting → s.cursor.val = 19 →
    (∀ o : Fin 20, o.val < 19 → s.buf.read o.val = some F[o.val]) → F[19] = b →
    (∀ S, decodeSample s.cfg F = .accepted S → exec (.feed b) s = .next { s with
      buf := s.buf.write 19 b, cursor := 0, phase := .seekHeading,
      resp := some (.ok (.frame F S)) })
    ∧ (∀ r, decodeSample s.cfg F = .rejected r → exec (.feed b) s = .next { s with
      buf := s.buf.write 19 b, cursor := 0, phase := .seekHeading,
      resp := some (.error (.unrecognizedFrame F)) })

/-- FEED changes no byte of `buf` but those R101 to R105 store to, each of which then holds the byte
fed, and neither the configuration nor what the host has issued. The offsets stored to for a 0x55 in
AwaitFlag rest on R102's flag-position policy (R245; UNVERIFIED, log entry 19). -/
def Obligations.FeedStoresOnlyWhereTheRulesSay : Prop :=
  ∀ (s t : State) (b : Byte), exec (.feed b) s = .next t →
    t.cfg = s.cfg ∧ t.pending = s.pending
      ∧ (∀ o, o ∉ feedStores s b → t.buf.read o = s.buf.read o)
      ∧ (∀ o ∈ feedStores s b, t.buf.read o = some b)

/-- In a state of the invariant every byte can be fed, whatever the phase (R100: no byte value causes
an error). -/
def Obligations.FeedCompletesOnEveryByte : Prop :=
  ∀ (s : State) (b : Byte), s.Inv →
    ∃ t, exec (.feed b) s = .next t ∧ t.cfg = s.cfg ∧ t.pending = s.pending ∧ t.resp.isSome = true

/-- R107: once the phase is AwaitRegister or Collecting, where FEED takes the synchronizer does not
depend on the byte; the byte is stored verbatim at the cursor and counted; and before the 20th no frame
comes and the synchronizer does not seek again. -/
def Obligations.PayloadBytesAreNotInterpreted : Prop :=
  ∀ (s : State) (b b' : Byte), s.Inv → s.phase = .awaitRegister ∨ s.phase = .collecting →
    ∃ t t', exec (.feed b) s = .next t ∧ exec (.feed b') s = .next t'
      ∧ t.phase = t'.phase ∧ t.cursor = t'.cursor
      ∧ t.buf.read s.cursor.val = some b ∧ t'.buf.read s.cursor.val = some b'
      ∧ (s.cursor.val < 19 → t.cursor.val = s.cursor.val + 1 ∧ t.phase = .collecting
          ∧ t.resp = some .noFrame)
      ∧ (s.cursor.val = 19 → t.cursor = 0 ∧ t.phase = .seekHeading)

/-- R106: a completing FEED emits a frame that begins with 0x55 and a valid flag, with the sample that
decoding it gives or as unrecognized; it fails to decode exactly when CHECK_REG_HI is true, the flag is
0x71 and byte 3 is not 0x00; and the synchronizer seeks the next heading in both cases. -/
def Obligations.CompletedFrameFailsOnlyOnByteThree : Prop :=
  ∀ (s : State) (b : Byte), s.Inv → s.phase = .collecting → s.cursor.val = 19 →
    ∃ t F, exec (.feed b) s = .next t ∧ t.buf.frame = some F ∧ t.phase = .seekHeading ∧ t.cursor = 0
      ∧ F[0] = 0x55#8 ∧ (F[1] = 0x61#8 ∨ F[1] = 0x71#8)
      ∧ ((s.cfg.checkRegHi = true ∧ F[1] = 0x71#8 ∧ F[3] ≠ 0x00#8)
          → (∃ r, decodeSample s.cfg F = .rejected r)
            ∧ t.resp = some (.error (.unrecognizedFrame F)))
      ∧ (¬ (s.cfg.checkRegHi = true ∧ F[1] = 0x71#8 ∧ F[3] ≠ 0x00#8)
          → ∃ S, decodeSample s.cfg F = .accepted S ∧ t.resp = some (.ok (.frame F S)))

/-- R23: the reset state satisfies the phase invariant and every step preserves it, together with the
known bytes below the cursor and the canonical form of the frame space. -/
def Obligations.EveryStepKeepsTheInvariant : Prop :=
  State.reset.Inv ∧ ∀ s t : State, s.Inv → step s = .next t → t.Inv

/-- R30: no rule reads an unknown byte: from a state of the invariant no step faults. -/
def Obligations.NoStepReadsAnUnknownByte : Prop :=
  ∀ (s : State) (f : Fault), s.Inv → step s ≠ .fault f

/-- R108 (the source's own test): from SeekHeading, 0x55 0x61 and any 18 bytes give NONE nineteen times
and then exactly that frame with its sample, and the synchronizer is back in SeekHeading. -/
def Obligations.TwentyFedBytesYieldTheirFrame : Prop :=
  ∀ (s : State) (p : Vector Byte 18) (rest : List Input), s.cfg.wf = true → s.phase = .seekHeading →
    s.pending = feeds ([0x55#8, 0x61#8] ++ p.toList) ++ rest →
    ∃ (t : State) (F : Frame), F.toList = [0x55#8, 0x61#8] ++ p.toList
      ∧ observe 20 s = List.replicate 19 (some .noFrame)
          ++ [some (.ok (.frame F (streamedSample F.streamFields)))]
      ∧ run 20 s = .next t ∧ t.phase = .seekHeading ∧ t.cursor = 0 ∧ t.pending = rest

/-- R108: requests other than FEED issued between the bytes of a stream change neither where the
synchronizer ends nor which frames come out. (A run that asks for ENC_FW_UPDATE while FWUPD_CODE is
unbound is refused, R172, and is left out.) -/
def Obligations.OtherRequestsDoNotDisturbTheStream : Prop :=
  ∀ (s : State) (l : List Input), s.cfg.wf = true → s.Inv → (∀ x ∈ l, x.isRequest = true) →
    (s.cfg.fwupdCode ≠ none
      ∨ ∀ w d, .request w d ∈ l → decodeRequest w d ≠ .accepted .encFwUpdate) →
    ∃ t t', run l.length { s with pending := l } = .next t
      ∧ run (l.filter Input.isFeed).length { s with pending := l.filter Input.isFeed } = .next t'
      ∧ t.arch = t'.arch
      ∧ emitted (observe l.length { s with pending := l })
          = emitted (observe (l.filter Input.isFeed).length
              { s with pending := l.filter Input.isFeed })

/-- R110's bound: n bytes fed to a synchronizer that holds c complete at most (n + c) / 20 frames, and
20 bytes for each frame completed, with those still held, are no more than n + c. -/
def Obligations.FedBytesBoundTheFrames : Prop :=
  ∀ (s : State) (bs : List Byte), s.cfg.wf = true → s.Inv → s.pending = feeds bs →
    ∃ t, run bs.length s = .next t
      ∧ 20 * completions (observe bs.length s) + t.cursor.val ≤ bs.length + s.cursor.val
      ∧ completions (observe bs.length s) ≤ (bs.length + s.cursor.val) / 20

/-! ### The frame decoder -/

/-- R125 to R128: DECODE of a streamed frame. -/
def Obligations.DecodeStreamedGivesScaledTriples : Prop :=
  ∀ (s : State) (F : Frame), F[0] = 0x55#8 → F[1] = 0x61#8 →
    exec (.decode F) s = .next { s with resp := some (.ok (.sample (.streamed
      ⟨⟨(F.le16 2).toInt, 2048⟩, ⟨(F.le16 4).toInt, 2048⟩, ⟨(F.le16 6).toInt, 2048⟩⟩
      ⟨⟨(F.le16 8).toInt * 125, 2048⟩, ⟨(F.le16 10).toInt * 125, 2048⟩,
        ⟨(F.le16 12).toInt * 125, 2048⟩⟩
      ⟨⟨(F.le16 14).toInt * 45, 8192⟩, ⟨(F.le16 16).toInt * 45, 8192⟩,
        ⟨(F.le16 18).toInt * 45, 8192⟩⟩))) }

/-- R129 to R139: DECODE of a register-echo frame whose byte 3 passes R130's check, by the register
number. -/
def Obligations.DecodeRegisterEchoGivesItsSample : Prop :=
  ∀ (s : State) (F : Frame), s.cfg.wf = true → F[0] = 0x55#8 → F[1] = 0x71#8 →
    (s.cfg.checkRegHi = true → F[3] = 0x00#8) →
    (F[2] = s.cfg.regMag → exec (.decode F) s = .next { s with resp := some (.ok (.sample
      (.magneticField (F.le16 4).toInt (F.le16 6).toInt (F.le16 8).toInt))) })
    ∧ (F[2] = s.cfg.regQuat → exec (.decode F) s = .next { s with resp := some (.ok (.sample
      (.quaternion ⟨(F.le16 4).toInt, 32768⟩ ⟨(F.le16 6).toInt, 32768⟩
        ⟨(F.le16 8).toInt, 32768⟩ ⟨(F.le16 10).toInt, 32768⟩))) })
    ∧ (F[2] = s.cfg.regTemp → exec (.decode F) s = .next { s with resp := some (.ok (.sample
      (.temperature ⟨(F.le16 4).toInt, 100⟩))) })
    ∧ (F[2] = s.cfg.regBatt → exec (.decode F) s = .next { s with resp := some (.ok (.sample
      (.batteryVoltage ⟨((F.le16 4).toNat : Int), 100⟩))) })
    ∧ (F[2] = s.cfg.regVersion → exec (.decode F) s = .next { s with resp := some (.ok (.sample
      (.firmwareVersion (F.le16 4)))) })
    ∧ (F[2] = s.cfg.regDateTime → exec (.decode F) s = .next { s with resp := some (.ok (.sample
      (.dateTime ⟨s.cfg.yearBase + F[4].toNat, F[5], F[6], F[7], F[8], F[9], F.le16 10⟩))) })
    ∧ (F[2] ∉ [s.cfg.regMag, s.cfg.regQuat, s.cfg.regTemp, s.cfg.regBatt, s.cfg.regVersion,
          s.cfg.regDateTime] →
      exec (.decode F) s = .next { s with resp := some (.ok (.sample (.registerBurst F[2]
        #v[F.le16 4, F.le16 6, F.le16 8, F.le16 10, F.le16 12, F.le16 14, F.le16 16,
          F.le16 18]))) })

/-- R122, R123, R124 and R130: a frame that is none is answered with all its 20 bytes, and nothing else
changes. -/
def Obligations.DecodeRefusesWhatIsNoFrame : Prop :=
  ∀ (s : State) (F : Frame),
    (F[0] ≠ 0x55#8 ∨ (F[1] ≠ 0x61#8 ∧ F[1] ≠ 0x71#8)
      ∨ (s.cfg.checkRegHi = true ∧ F[1] = 0x71#8 ∧ F[3] ≠ 0x00#8)) →
    exec (.decode F) s = .next { s with resp := some (.error (.unrecognizedFrame F)) }

/-- R140: for every 20 bytes DECODE gives exactly one result, a sample or UnrecognizedFrame(F), the
same in every state of one WireConfig, and changes no state. -/
def Obligations.DecodeIsTotalAndPure : Prop :=
  ∀ (F : Frame) (cfg : WireConfig), ∃ r : Response,
    ((∃ S, r = .ok (.sample S)) ∨ r = .error (.unrecognizedFrame F))
      ∧ ∀ s : State, s.cfg = cfg → exec (.decode F) s = .next { s with resp := some r }

/-- R141: bytes a kind does not read do not affect the result. -/
def Obligations.UnreadBytesDoNotMatter : Prop :=
  ∀ (cfg : WireConfig) (F G : Frame) (k : FrameKind), classify cfg F = .accepted k →
    F[0] = G[0] → F[1] = G[1] → F[2] = G[2] → (cfg.checkRegHi = true → F[3] = G[3]) →
    (∀ o : Fin 20, o.val ∈ readOffsets k → F[o.val] = G[o.val]) →
      decodeSample cfg G = decodeSample cfg F

/-- R142: the nine raw fields of a streamed frame, re-encoded in two's complement, give the frame back,
its sample determines the frame, and each scaled value its raw field. -/
def Obligations.StreamedFrameIsRecoveredFromItsFields : Prop :=
  (∀ F : Frame, F[0] = 0x55#8 → F[1] = 0x61#8 →
    streamFrame
      ⟨BitVec.ofInt 16 (s16 (F.le16 2)), BitVec.ofInt 16 (s16 (F.le16 4)),
        BitVec.ofInt 16 (s16 (F.le16 6)), BitVec.ofInt 16 (s16 (F.le16 8)),
        BitVec.ofInt 16 (s16 (F.le16 10)), BitVec.ofInt 16 (s16 (F.le16 12)),
        BitVec.ofInt 16 (s16 (F.le16 14)), BitVec.ofInt 16 (s16 (F.le16 16)),
        BitVec.ofInt 16 (s16 (F.le16 18))⟩ = F)
  ∧ (∀ (cfg : WireConfig) (F G : Frame) (S : Sample), F[1] = 0x61#8 → G[1] = 0x61#8 →
    decodeSample cfg F = .accepted S → decodeSample cfg G = .accepted S → F = G)
  ∧ (∀ v : HalfWord,
    ((accel v).num : ℚ) / (accel v).den * 2048 = s16 v
      ∧ ((gyro v).num : ℚ) / (gyro v).den * 2048 / 125 = s16 v
      ∧ ((angle v).num : ℚ) / (angle v).den * 8192 / 45 = s16 v)

/-- The eight FRAME rows, called directly: the sample of their kind; the seven register-echo ones answer
UNRECOGNIZED_FRAME instead when their byte 3 does not pass R130's check (R125 to R128, R132 to R139; the
direct call is the model's choice, log entry 7). -/
def Obligations.FrameRowsGiveTheirSamples : Prop :=
  (∀ (s : State) (p : StreamFields),
    exec (.frameStreamed p) s = .next { s with resp := some (.ok (.sample (.streamed
      ⟨⟨p.ax.toInt, 2048⟩, ⟨p.ay.toInt, 2048⟩, ⟨p.az.toInt, 2048⟩⟩
      ⟨⟨p.wx.toInt * 125, 2048⟩, ⟨p.wy.toInt * 125, 2048⟩, ⟨p.wz.toInt * 125, 2048⟩⟩
      ⟨⟨p.roll.toInt * 45, 8192⟩, ⟨p.pitch.toInt * 45, 8192⟩, ⟨p.yaw.toInt * 45, 8192⟩⟩))) })
  ∧ (∀ (s : State) (e : EchoFields), (s.cfg.checkRegHi = true → e.regHi = 0x00#8) →
    exec (.frameMag e) s = .next { s with resp := some (.ok (.sample
      (.magneticField e.v0.toInt e.v1.toInt e.v2.toInt))) }
    ∧ exec (.frameQuat e) s = .next { s with resp := some (.ok (.sample
      (.quaternion ⟨e.v0.toInt, 32768⟩ ⟨e.v1.toInt, 32768⟩ ⟨e.v2.toInt, 32768⟩
        ⟨e.v3.toInt, 32768⟩))) }
    ∧ exec (.frameTemp e) s = .next { s with resp := some (.ok (.sample
      (.temperature ⟨e.v0.toInt, 100⟩))) }
    ∧ exec (.frameBatt e) s = .next { s with resp := some (.ok (.sample
      (.batteryVoltage ⟨(e.v0.toNat : Int), 100⟩))) }
    ∧ exec (.frameVersion e) s = .next { s with resp := some (.ok (.sample
      (.firmwareVersion e.v0))) }
    ∧ ∀ reg, exec (.frameBurst reg e) s = .next { s with resp := some (.ok (.sample
      (.registerBurst reg #v[e.v0, e.v1, e.v2, e.v3, e.v4, e.v5, e.v6, e.v7]))) })
  ∧ (∀ (s : State) (d : DateTimeFields), (s.cfg.checkRegHi = true → d.regHi = 0x00#8) →
    exec (.frameDateTime d) s = .next { s with resp := some (.ok (.sample
      (.dateTime ⟨s.cfg.yearBase + d.year.toNat, d.month, d.day, d.hour, d.minute, d.second,
        d.millisecond⟩))) })
  ∧ (∀ (s : State) (e : EchoFields), s.cfg.checkRegHi = true → e.regHi ≠ 0x00#8 →
    exec (.frameMag e) s = .next { s with resp := some (.error
      (.unrecognizedFrame (echoFrame s.cfg.regMag e))) }
    ∧ exec (.frameQuat e) s = .next { s with resp := some (.error
      (.unrecognizedFrame (echoFrame s.cfg.regQuat e))) }
    ∧ exec (.frameTemp e) s = .next { s with resp := some (.error
      (.unrecognizedFrame (echoFrame s.cfg.regTemp e))) }
    ∧ exec (.frameBatt e) s = .next { s with resp := some (.error
      (.unrecognizedFrame (echoFrame s.cfg.regBatt e))) }
    ∧ exec (.frameVersion e) s = .next { s with resp := some (.error
      (.unrecognizedFrame (echoFrame s.cfg.regVersion e))) }
    ∧ ∀ reg, exec (.frameBurst reg e) s = .next { s with resp := some (.error
      (.unrecognizedFrame (echoFrame reg e))) })
  ∧ (∀ (s : State) (d : DateTimeFields), s.cfg.checkRegHi = true → d.regHi ≠ 0x00#8 →
    exec (.frameDateTime d) s = .next { s with resp := some (.error
      (.unrecognizedFrame (dateTimeFrame s.cfg.regDateTime d))) })

/-- A FRAME row's direct call answers what DECODE of its 20 bytes answers, the check of byte 3
included. -/
def Obligations.FrameRowsAgreeWithDecode : Prop :=
  ∀ (s : State) (i : Instr) (F : Frame), s.cfg.wf = true →
    (i.format = .frameS ∨ i.format = .frameR) →
    (∀ reg e, i = .frameBurst reg e → reg ∉ s.cfg.regNumbers) →
    encode s.cfg i = some (.frame F) → exec i s = exec (.decode F) s

/-! ### The command encoder -/

/-- R160 to R164 and R166 to R170: each request answers its five bytes (R159) and changes nothing
else. -/
def Obligations.EncoderRequestsBuildTheirCommands : Prop :=
  ∀ (s : State) (a b : Byte) (ms : HalfWord),
    exec .encSave s = .next { s with resp := some (.ok (.command
      #v[0xFF#8, 0xAA#8, s.cfg.cmdSave, s.cfg.argSave, 0x00#8])) }
    ∧ exec .encRestore s = .next { s with resp := some (.ok (.command
      #v[0xFF#8, 0xAA#8, s.cfg.cmdSave, s.cfg.argRestore, 0x00#8])) }
    ∧ exec .encCalAcc s = .next { s with resp := some (.ok (.command
      #v[0xFF#8, 0xAA#8, s.cfg.cmdCal, s.cfg.argCalAcc, 0x00#8])) }
    ∧ exec .encCalMag s = .next { s with resp := some (.ok (.command
      #v[0xFF#8, 0xAA#8, s.cfg.cmdCal, s.cfg.argCalMag, 0x00#8])) }
    ∧ exec .encCalQuit s = .next { s with resp := some (.ok (.command
      #v[0xFF#8, 0xAA#8, s.cfg.cmdCal, s.cfg.argCalQuit, 0x00#8])) }
    ∧ exec (.encReadReg a) s = .next { s with resp := some (.ok (.command
      #v[0xFF#8, 0xAA#8, s.cfg.cmdRead, a, 0x00#8])) }
    ∧ exec (.encTimeYm a b) s = .next { s with resp := some (.ok (.command
      #v[0xFF#8, 0xAA#8, s.cfg.cmdTimeYm, a, b])) }
    ∧ exec (.encTimeDh a b) s = .next { s with resp := some (.ok (.command
      #v[0xFF#8, 0xAA#8, s.cfg.cmdTimeDh, a, b])) }
    ∧ exec (.encTimeMs a b) s = .next { s with resp := some (.ok (.command
      #v[0xFF#8, 0xAA#8, s.cfg.cmdTimeMs, a, b])) }
    ∧ exec (.encTimeMsec ms) s = .next { s with resp := some (.ok (.command
      #v[0xFF#8, 0xAA#8, s.cfg.cmdTimeMsec, ms.extractLsb' 0 8, ms.extractLsb' 8 8])) }

/-- The builder operations behind the CMD rows answer the commands of R69's map and change nothing else
(the direct call is the model's choice, log entry 8). -/
def Obligations.CommandRowsBuildTheirCommands : Prop :=
  ∀ (s : State) (a b : Byte) (ms : HalfWord),
    exec .cmdSave s = .next { s with resp := some (.ok (.command
      #v[0xFF#8, 0xAA#8, s.cfg.cmdSave, s.cfg.argSave, 0x00#8])) }
    ∧ exec .cmdRestore s = .next { s with resp := some (.ok (.command
      #v[0xFF#8, 0xAA#8, s.cfg.cmdSave, s.cfg.argRestore, 0x00#8])) }
    ∧ exec .cmdCalAcc s = .next { s with resp := some (.ok (.command
      #v[0xFF#8, 0xAA#8, s.cfg.cmdCal, s.cfg.argCalAcc, 0x00#8])) }
    ∧ exec .cmdCalMag s = .next { s with resp := some (.ok (.command
      #v[0xFF#8, 0xAA#8, s.cfg.cmdCal, s.cfg.argCalMag, 0x00#8])) }
    ∧ exec .cmdCalQuit s = .next { s with resp := some (.ok (.command
      #v[0xFF#8, 0xAA#8, s.cfg.cmdCal, s.cfg.argCalQuit, 0x00#8])) }
    ∧ exec (.cmdReadReg a) s = .next { s with resp := some (.ok (.command
      #v[0xFF#8, 0xAA#8, s.cfg.cmdRead, a, 0x00#8])) }
    ∧ exec (.cmdTimeYm a b) s = .next { s with resp := some (.ok (.command
      #v[0xFF#8, 0xAA#8, s.cfg.cmdTimeYm, a, b])) }
    ∧ exec (.cmdTimeDh a b) s = .next { s with resp := some (.ok (.command
      #v[0xFF#8, 0xAA#8, s.cfg.cmdTimeDh, a, b])) }
    ∧ exec (.cmdTimeMs a b) s = .next { s with resp := some (.ok (.command
      #v[0xFF#8, 0xAA#8, s.cfg.cmdTimeMs, a, b])) }
    ∧ exec (.cmdTimeMsec ms) s = .next { s with resp := some (.ok (.command
      #v[0xFF#8, 0xAA#8, s.cfg.cmdTimeMsec, ms.extractLsb' 0 8, ms.extractLsb' 8 8])) }

/-- R165: a rate code of RATE_TABLE gives its command, any other gives BAD_ARGUMENT and no command; the
request and the builder of the CMD row alike. -/
def Obligations.SetRateAcceptsOnlyTableCodes : Prop :=
  ∀ (s : State) (rate : Byte),
    ((∃ f, (rate, f) ∈ s.cfg.rateTable) →
      exec (.encSetRate rate) s = .next { s with resp := some (.ok (.command
          #v[0xFF#8, 0xAA#8, 0x03#8, rate, 0x00#8])) }
        ∧ exec (.cmdSetRate rate) s = .next { s with resp := some (.ok (.command
          #v[0xFF#8, 0xAA#8, 0x03#8, rate, 0x00#8])) })
    ∧ ((∀ f, (rate, f) ∉ s.cfg.rateTable) →
      exec (.encSetRate rate) s = .next { s with resp := some (.error (.badArgument rate)) }
        ∧ exec (.cmdSetRate rate) s = .next { s with resp := some (.error (.badArgument rate)) })

/-- R172: with FWUPD_CODE bound to c the command is FF AA c 00 00; unbound, the model refuses; the
request and the builder of the CMD row alike. -/
def Obligations.FwUpdateNeedsItsCode : Prop :=
  ∀ s : State,
    (∀ c, s.cfg.fwupdCode = some c →
      exec .encFwUpdate s = .next { s with resp := some (.ok (.command
          #v[0xFF#8, 0xAA#8, c, 0x00#8, 0x00#8])) }
        ∧ exec .cmdFwUpdate s = .next { s with resp := some (.ok (.command
          #v[0xFF#8, 0xAA#8, c, 0x00#8, 0x00#8])) })
    ∧ (s.cfg.fwupdCode = none →
      exec .encFwUpdate s = .refused .fwUpdateUnbound
        ∧ exec .cmdFwUpdate s = .refused .fwUpdateUnbound)

/-- R64: whatever instruction answers a command, its bytes 0 and 1 are FF AA. -/
def Obligations.EveryCommandHasTheFixedHeader : Prop :=
  ∀ (i : Instr) (s t : State) (C : CommandBytes), exec i s = .next t →
    t.resp = some (.ok (.command C)) → C[0] = 0xFF#8 ∧ C[1] = 0xAA#8

/-! ### The scale table -/

/-- R194 and R193: LUT_BATT under every well-formed BATT_PCT. -/
def Obligations.BatteryLookupMeetsItsAnchors : Prop :=
  ∀ (s : State) (cv : HalfWord), s.cfg.wf = true →
    ∃ v, exec (.lutBatt cv) s = .next { s with resp := some (.ok (.value v)) } ∧ v ≤ 100
      ∧ (400 ≤ cv.toNat → v = 100) ∧ (cv.toNat ≤ 330 → v = 0)
      ∧ ∀ (dv : HalfWord) (u : Nat), cv.toNat ≤ dv.toNat →
          exec (.lutBatt dv) s = .next { s with resp := some (.ok (.value u)) } → v ≤ u

/-- R193's default function. It is the spec's own choice (D22), and the model's table of it (log
entry 12). -/
def Obligations.DefaultBatteryLookupInterpolates : Prop :=
  ∀ (s : State) (cv : HalfWord), s.cfg.battPct = defaultBattPct →
    exec (.lutBatt cv) s = .next { s with resp := some (.ok (.value
      (if 400 ≤ cv.toNat then 100
       else if cv.toNat ≤ 330 then 0
       else (cv.toNat - 330) * 100 / 70))) }

/-- R191: a code of RATE_TABLE gives its frequency, any other gives BAD_ARGUMENT. -/
def Obligations.RateLookupFollowsTheTable : Prop :=
  ∀ (s : State) (rate : Byte), s.cfg.wf = true →
    (∀ f, (rate, f) ∈ s.cfg.rateTable →
      exec (.lutRateHz rate) s = .next { s with resp := some (.ok (.value f)) })
    ∧ ((∀ f, (rate, f) ∉ s.cfg.rateTable) →
      exec (.lutRateHz rate) s = .next { s with resp := some (.error (.badArgument rate)) })

/-- R192: the answer is the code of an entry whose frequency is nearest, the smaller one on a tie. -/
def Obligations.FrequencyLookupIsNearest : Prop :=
  ∀ (s : State) (mhz : BitVec 24), s.cfg.wf = true →
    ∃ e ∈ s.cfg.rateTable,
      exec (.lutHzRate mhz) s = .next { s with resp := some (.ok (.value e.1.toNat)) }
      ∧ ∀ e' ∈ s.cfg.rateTable,
          ((e.2 : Int) - mhz.toNat).natAbs < ((e'.2 : Int) - mhz.toNat).natAbs
          ∨ (((e.2 : Int) - mhz.toNat).natAbs = ((e'.2 : Int) - mhz.toNat).natAbs ∧ e.2 ≤ e'.2)

/-- R192: the two rate lookups are inverse to each other on the table. -/
def Obligations.RateLookupsAreInverse : Prop :=
  ∀ (s : State) (c : Byte) (f : Nat), s.cfg.wf = true → (c, f) ∈ s.cfg.rateTable →
    exec (.lutRateHz c) s = .next { s with resp := some (.ok (.value f)) }
      ∧ exec (.lutHzRate (BitVec.ofNat 24 f)) s
          = .next { s with resp := some (.ok (.value c.toNat)) }
      ∧ (BitVec.ofNat 24 f).toNat = f

/-- R73 and R171: SET_TIME is four commands in sequence, each answered with its own five bytes;
ENC_SET_RATE_HZ is answered with a code of the table and then with the command that sets it. -/
def Obligations.PseudoInstructionsExpandInOrder : Prop :=
  (∀ (s : State) (yy mon day hour min sec : Byte) (ms : HalfWord) (rest : List Input),
    s.cfg.wf = true → s.pending = setTime s.cfg yy mon day hour min sec ms ++ rest →
    observe 4 s =
      [some (.ok (.command #v[0xFF#8, 0xAA#8, s.cfg.cmdTimeYm, yy, mon])),
       some (.ok (.command #v[0xFF#8, 0xAA#8, s.cfg.cmdTimeDh, day, hour])),
       some (.ok (.command #v[0xFF#8, 0xAA#8, s.cfg.cmdTimeMs, min, sec])),
       some (.ok (.command #v[0xFF#8, 0xAA#8, s.cfg.cmdTimeMsec, ms.lo, ms.hi]))])
  ∧ (∀ (s : State) (mhz : BitVec 24) (rest : List Input), s.cfg.wf = true →
    s.pending = setRateHz s.cfg mhz ++ rest →
    ∃ e ∈ s.cfg.rateTable, observe 2 s =
      [some (.ok (.value e.1.toNat)),
       some (.ok (.command #v[0xFF#8, 0xAA#8, 0x03#8, e.1, 0x00#8]))])

/-! ### Rules over every instruction -/

/-- R25 and R45: an instruction other than FEED changes the response alone, and that response is the same
in every state of one WireConfig: it reads neither `phase` nor `cursor` nor `buf`. -/
def Obligations.OnlyFeedChangesState : Prop :=
  ∀ (i : Instr) (s t : State), (∀ b, i ≠ .feed b) → exec i s = .next t →
    ∃ r, t = { s with resp := some r }
      ∧ ∀ u : State, u.cfg = s.cfg → exec i u = .next { u with resp := some r }

/-- R67: every instruction that gives a next state answers exactly one response in that step. -/
def Obligations.EveryInstructionAnswersOnce : Prop :=
  ∀ (i : Instr) (s t : State), exec i s = .next t → ∃ r, t.resp = some r

/-- R27: no step changes the WireConfig. That it stands in State is the model's choice (log entry 1). -/
def Obligations.NoStepChangesTheConfig : Prop :=
  ∀ s t : State, step s = .next t → t.cfg = s.cfg

/-- R26 and R32: no response is latched: what a step does never depends on an older response. -/
def Obligations.NoStepReadsAResponse : Prop :=
  ∀ (s : State) (r : Option Response), step { s with resp := r } = step s

/-- R203: a step that ends in an error changes no state, but for the FEED whose completed frame fails
decode, which makes its state change. -/
def Obligations.ErrorsArePrecise : Prop :=
  ∀ (s t : State) (e : BlockError), step s = .next t → t.resp = some (.error e) →
    (t.phase = s.phase ∧ t.cursor = s.cursor ∧ t.buf = s.buf ∧ t.cfg = s.cfg)
      ∨ ∃ w d rest b F, s.pending = .request w d :: rest ∧ decodeRequest w d = .accepted (.feed b)
          ∧ s.phase = .collecting ∧ s.cursor.val = 19 ∧ t.buf = s.buf.write 19 b
          ∧ t.buf.frame = some F ∧ t.phase = .seekHeading ∧ t.cursor = 0 ∧ t.cfg = s.cfg
          ∧ e = .unrecognizedFrame F

/-- R201: which instruction raises which error. (The FRAME and CMD rows raise theirs as the requests
do: log entries 7 and 8.) -/
def Obligations.ErrorsComeFromTheirInstructions : Prop :=
  ∀ (i : Instr) (s t : State) (e : BlockError), exec i s = .next t → t.resp = some (.error e) →
    (∃ F, e = .unrecognizedFrame F
        ∧ ((∃ b, i = .feed b) ∨ i = .decode F ∨ encode s.cfg i = some (.frame F)))
      ∨ ∃ a, e = .badArgument a
        ∧ (i = .encSetRate a ∨ i = .lutRateHz a ∨ i = .cmdSetRate a)

/-- R67 and R204: under a well-formed WireConfig only entering firmware-update mode is refused, and only
while FWUPD_CODE is unbound. -/
def Obligations.OnlyUnboundFwUpdateIsRefused : Prop :=
  ∀ (i : Instr) (s : State) (r : Refusal), s.cfg.wf = true → exec i s = .refused r →
    (i = .encFwUpdate ∨ i = .cmdFwUpdate) ∧ s.cfg.fwupdCode = none ∧ r = .fwUpdateUnbound

/-- R67's status codes. -/
def Obligations.StatusCodesAreAsNumbered : Prop :=
  (∀ p, (Response.ok p).status = 0#3) ∧ Response.noFrame.status = 1#3
    ∧ (∀ F, (Response.error (.unrecognizedFrame F)).status = 2#3)
    ∧ (∀ a, (Response.error (.badArgument a)).status = 3#3)
    ∧ ∀ w, (Response.error (.illegalRequest w)).status = 4#3

/-! ### Floats and timestamps -/

/-- R126 to R128 and R133: every acceleration, angular velocity, angle and quaternion part is exact in
binary32. The format is general knowledge (K6; log entry 14). -/
def Obligations.InertialFloatsAreExact : Prop :=
  ∀ v : HalfWord,
    binary32Value (accel v).binary32 = (s16 v : ℚ) / 2048
      ∧ binary32Value (gyro v).binary32 = (s16 v : ℚ) * 125 / 2048
      ∧ binary32Value (angle v).binary32 = (s16 v : ℚ) * 45 / 8192
      ∧ binary32Value (quatPart v).binary32 = (s16 v : ℚ) / 32768

/-- R13: rounding is to the nearest integer, ties to even. -/
def Obligations.RoundingIsToNearestEven : Prop :=
  ∀ a b : Nat, 0 < b →
    2 * ((a : Int) - roundHalfEven a b * b).natAbs ≤ b
      ∧ (2 * ((a : Int) - roundHalfEven a b * b).natAbs = b → roundHalfEven a b % 2 = 0)

/-- R138's `dec`: it pads to at least w characters, never truncates, and reads back as the number. -/
def Obligations.DecimalFieldsPadAndKeepTheirValue : Prop :=
  ∀ n w : Nat, digitsValue 10 0 (dec n w) = some n ∧ w ≤ (dec n w).length
    ∧ (0 < w → n < 10 ^ w → (dec n w).length = w)
end

