-- ==== Sys2Proof/Laws/Decode.lean ====
section
/-! SUPPORT. What the classification of a frame and the fields of its bytes are. -/

namespace Sys2Proof

/-- A frame with heading 0x55 and flag 0x61 is a streamed one. -/
theorem classify_streamed (cfg : WireConfig) (F : Frame) (h0 : F[0] = heading)
    (h1 : F[1] = flagStream) : classify cfg F = .accepted .streamed := by
  simp [classify, h0, h1]

/-- A frame with heading 0x55, flag 0x71 and a byte 3 that passes the check is of the kind its register
byte selects. -/
theorem classify_echo (cfg : WireConfig) (F : Frame) (h0 : F[0] = heading) (h1 : F[1] = flagReg)
    (h3 : cfg.checkRegHi = true → F[3] = regHiExpected) :
    classify cfg F = .accepted (echoKind cfg F[2]) := by
  have hn : ¬ (cfg.checkRegHi = true ∧ F[3] ≠ regHiExpected) := fun h => h.2 (h3 h.1)
  have h1' : F[1] ≠ flagStream := by rw [h1]; decide
  unfold classify
  rw [if_neg (by simp [h0]), if_neg h1', if_pos h1, if_neg hn]

/-- What an accepted frame holds: its heading, its flag, and for a register echo the check of byte 3. -/
theorem classify_accepted {cfg : WireConfig} {F : Frame} {k : FrameKind}
    (h : classify cfg F = .accepted k) :
    F[0] = heading ∧ ((F[1] = flagStream ∧ k = .streamed)
      ∨ (F[1] = flagReg ∧ (cfg.checkRegHi = true → F[3] = regHiExpected)
          ∧ k = echoKind cfg F[2])) := by
  unfold classify at h
  split at h
  · cases h
  · next h0 =>
    refine ⟨not_not.mp h0, ?_⟩
    split at h
    · next h1 => cases h; exact .inl ⟨h1, rfl⟩
    · split at h
      · next h1 =>
        split at h
        · cases h
        · next h3 =>
          cases h
          exact .inr ⟨h1, fun hc => by_contra fun hn => h3 ⟨hc, hn⟩, rfl⟩
      · cases h

/-- What a frame that is none lacks. -/
theorem classify_rejected {cfg : WireConfig} {F : Frame} {r : Reject}
    (h : classify cfg F = .rejected r) :
    F[0] ≠ heading ∨ (F[1] ≠ flagStream ∧ F[1] ≠ flagReg)
      ∨ (F[1] = flagReg ∧ cfg.checkRegHi = true ∧ F[3] ≠ regHiExpected) := by
  unfold classify at h
  split at h
  · next h0 => exact .inl h0
  · split at h
    · cases h
    · next h1 =>
      split at h
      · next h2 =>
        split at h
        · next h3 => exact .inr (.inr ⟨h2, h3⟩)
        · cases h
      · next h2 => exact .inr (.inl ⟨h1, h2⟩)

/-- A register number that is none of the six selects the burst. -/
theorem echoKind_burst {cfg : WireConfig} {reg : Byte} (h : reg ∉ cfg.regNumbers) :
    echoKind cfg reg = .burst := by
  simp only [WireConfig.regNumbers, List.mem_cons, List.not_mem_nil, or_false, not_or] at h
  simp [echoKind, h]

/-- With distinct register numbers each selects its own kind (R131: the order cannot be seen). -/
theorem echoKind_named {cfg : WireConfig} (h : cfg.regNumbers.Nodup) :
    echoKind cfg cfg.regMag = .mag ∧ echoKind cfg cfg.regQuat = .quat
      ∧ echoKind cfg cfg.regTemp = .temp ∧ echoKind cfg cfg.regBatt = .batt
      ∧ echoKind cfg cfg.regVersion = .version ∧ echoKind cfg cfg.regDateTime = .dateTime := by
  simp only [WireConfig.regNumbers, List.nodup_cons, List.mem_cons, List.not_mem_nil, or_false,
    not_or] at h
  obtain ⟨⟨h1, h2, h3, h4, h5⟩, ⟨h6, h7, h8, h9⟩, ⟨h10, h11, h12⟩, ⟨h13, h14⟩, h15, -⟩ := h
  simp [echoKind, Ne.symm h1, Ne.symm h2, Ne.symm h3, Ne.symm h4, Ne.symm h5, Ne.symm h6,
    Ne.symm h7, Ne.symm h8, Ne.symm h9, Ne.symm h10, Ne.symm h11, Ne.symm h12, Ne.symm h13,
    Ne.symm h14, Ne.symm h15]

/-- A well-formed configuration has distinct register numbers. -/
theorem WireConfig.wf_regNumbers {cfg : WireConfig} (h : cfg.wf = true) : cfg.regNumbers.Nodup := by
  simp only [WireConfig.wf, WireConfig.regsDistinct, Bool.and_eq_true, decide_eq_true_eq] at h
  exact h.1.1.1.1.1.1.1.1.1

/-- The low byte of a word read from a frame is the byte at its offset. -/
@[simp] theorem Frame.le16_lo (F : Frame) (o : Nat) (h : o + 1 < 20) : (F.le16 o h).lo = F[o] := by
  unfold HalfWord.lo Frame.le16
  ext i hi
  simp only [BitVec.getElem_extractLsb', BitVec.getLsbD_append, Nat.zero_add, hi]
  simp [BitVec.getElem_eq_testBit_toNat, BitVec.getLsbD]

/-- The high byte of a word read from a frame is the byte at the next offset. -/
@[simp] theorem Frame.le16_hi (F : Frame) (o : Nat) (h : o + 1 < 20) :
    (F.le16 o h).hi = F[o + 1] := by
  unfold HalfWord.hi Frame.le16
  ext i hi
  simp only [BitVec.getElem_extractLsb', BitVec.getLsbD_append]
  have : ¬ (8 + i < 8) := by omega
  simp [BitVec.getElem_eq_testBit_toNat, BitVec.getLsbD, this]

/-- A word is its high byte above its low byte. -/
@[simp] theorem HalfWord.hi_append_lo (v : HalfWord) : v.hi ++ v.lo = v := by
  unfold HalfWord.hi HalfWord.lo
  apply BitVec.eq_of_getLsbD_eq
  intro i hi
  rw [BitVec.getLsbD_append]
  simp only [BitVec.getLsbD_extractLsb']
  by_cases h : i < 8
  · simp [h]
  · have h1 : i - 8 < 8 := by omega
    have h2 : 8 + (i - 8) = i := by omega
    simp [h, h1, h2]

/-- Bit j of byte i of a frame is bit 8i + j of the DEC_IN value that carries it. -/
theorem Frame.getLsbD_toDecIn (F : Frame) (i : Nat) (hi : i < 20) (j : Nat) (hj : j < 8) :
    F.toDecIn.getLsbD (8 * i + j) = F[i].getLsbD j := by
  unfold Frame.toDecIn
  interval_cases i <;>
  · simp only [BitVec.getLsbD_append]
    repeat (first | rw [if_pos (by omega)] | rw [if_neg (by omega)])
    exact congrArg (BitVec.getLsbD _) (by omega)

/-- A frame put on DEC_IN is the frame read from it. -/
@[simp] theorem Frame.ofDecIn_toDecIn (F : Frame) : Frame.ofDecIn F.toDecIn = F := by
  apply Vector.ext
  intro i hi
  unfold Frame.ofDecIn
  rw [Vector.getElem_ofFn]
  apply BitVec.eq_of_getLsbD_eq
  intro j hj
  rw [BitVec.getLsbD_extractLsb']
  simp [hj, Frame.getLsbD_toDecIn F i hi j hj]

/-- A DEC_IN value is the one its frame is put on. -/
@[simp] theorem Frame.toDecIn_ofDecIn (d : DecIn) : Frame.toDecIn (Frame.ofDecIn d) = d := by
  apply BitVec.eq_of_getLsbD_eq
  intro n hn
  have h : n = 8 * (n / 8) + n % 8 := by omega
  rw [h, Frame.getLsbD_toDecIn _ (n / 8) (by omega) (n % 8) (by omega)]
  unfold Frame.ofDecIn
  rw [Vector.getElem_ofFn, BitVec.getLsbD_extractLsb']
  simp [Nat.mod_lt]

/-- The fields of a streamed frame built from fields are those fields. -/
@[simp] theorem streamFrame_fields (p : StreamFields) : (streamFrame p).streamFields = p := by
  cases p
  simp [Frame.streamFields, Frame.le16, streamFrame]

/-- The fields of a register-echo frame built from fields are those fields. -/
@[simp] theorem echoFrame_fields (reg : Byte) (e : EchoFields) :
    (echoFrame reg e).echoFields = e := by
  cases e
  simp [Frame.echoFields, Frame.le16, echoFrame]

/-- The fields of a date/time frame built from fields are those fields. -/
@[simp] theorem dateTimeFrame_fields (reg : Byte) (d : DateTimeFields) :
    (dateTimeFrame reg d).dateTimeFields = d := by
  cases d
  simp [Frame.dateTimeFields, Frame.le16, dateTimeFrame]

/-- A field below the boundary of a concatenation lies in its low part. -/
theorem extract_low {m n : Nat} (x : BitVec m) (y : BitVec n) (lo w : Nat) (h : lo + w ≤ n) :
    (x ++ y).extractLsb' lo w = y.extractLsb' lo w := by
  apply BitVec.eq_of_getLsbD_eq
  intro i hi
  simp only [BitVec.getLsbD_extractLsb', BitVec.getLsbD_append]
  rw [if_pos (by omega)]

/-- A field above the boundary of a concatenation lies in its high part. -/
theorem extract_high {m n : Nat} (x : BitVec m) (y : BitVec n) (lo w : Nat) (h : n ≤ lo) :
    (x ++ y).extractLsb' lo w = x.extractLsb' (lo - n) w := by
  apply BitVec.eq_of_getLsbD_eq
  intro i hi
  simp only [BitVec.getLsbD_extractLsb', BitVec.getLsbD_append]
  rw [if_neg (by omega)]
  congr 2; omega

/-- The fields of a request word whose operand is arg[7:0]. -/
theorem wordOfByte_fields (op b : Byte) :
    reqOp (wordOfByte op b) = op ∧ reqByte0 (wordOfByte op b) = b
      ∧ wordOfByte op b &&& 0x00FFFF00#32 = 0#32 := by
  refine ⟨?_, ?_, ?_⟩
  · unfold reqOp wordOfByte
    rw [extract_high _ _ _ _ (by decide), extract_high _ _ _ _ (by decide)]
    simp
  · unfold reqByte0 wordOfByte
    rw [extract_low _ _ _ _ (by decide)]; simp
  · unfold wordOfByte
    rw [show (0x00FFFF00#32 : BitVec 32) = (0#8 ++ 0xFFFF#16 ++ 0#8 : BitVec 32) from rfl,
      BitVec.and_append, BitVec.and_append]
    simp

/-- The fields of a request word whose operands are arg[7:0] and arg[15:8]. -/
theorem wordOfBytes_fields (op b0 b1 : Byte) :
    reqOp (wordOfBytes op b0 b1) = op ∧ reqByte0 (wordOfBytes op b0 b1) = b0
      ∧ reqByte1 (wordOfBytes op b0 b1) = b1
      ∧ wordOfBytes op b0 b1 &&& 0x00FF0000#32 = 0#32 := by
  refine ⟨?_, ?_, ?_, ?_⟩
  · unfold reqOp wordOfBytes
    rw [extract_high _ _ _ _ (by decide), extract_high _ _ _ _ (by decide),
      extract_high _ _ _ _ (by decide)]
    simp
  · unfold reqByte0 wordOfBytes
    rw [extract_low _ _ _ _ (by decide)]; simp
  · unfold reqByte1 wordOfBytes
    rw [extract_high _ _ _ _ (by decide), extract_low _ _ _ _ (by decide)]; simp
  · unfold wordOfBytes
    rw [show (0x00FF0000#32 : BitVec 32) = (0#8 ++ 0xFF#8 ++ 0#8 ++ 0#8 : BitVec 32) from rfl,
      BitVec.and_append, BitVec.and_append, BitVec.and_append]
    simp

/-- The fields of a request word whose operand is arg[15:0]. -/
theorem wordOfHalf_fields (op : Byte) (v : HalfWord) :
    reqOp (wordOfHalf op v) = op ∧ reqHalf (wordOfHalf op v) = v
      ∧ wordOfHalf op v &&& 0x00FF0000#32 = 0#32 := by
  refine ⟨?_, ?_, ?_⟩
  · unfold reqOp wordOfHalf
    rw [extract_high _ _ _ _ (by decide), extract_high _ _ _ _ (by decide)]
    simp
  · unfold reqHalf wordOfHalf
    rw [extract_low _ _ _ _ (by decide)]; simp
  · unfold wordOfHalf
    rw [show (0x00FF0000#32 : BitVec 32) = (0#8 ++ 0xFF#8 ++ 0#16 : BitVec 32) from rfl,
      BitVec.and_append, BitVec.and_append]
    simp

/-- The fields of a request word whose operand is arg[23:0]. -/
theorem wordOfArg_fields (op : Byte) (v : BitVec 24) :
    reqOp (wordOfArg op v) = op ∧ reqArg (wordOfArg op v) = v
      ∧ wordOfArg op 0 &&& 0x00FFFFFF#32 = 0#32 := by
  refine ⟨?_, ?_, ?_⟩
  · unfold reqOp wordOfArg
    rw [extract_high _ _ _ _ (by decide)]
    simp
  · unfold reqArg wordOfArg
    rw [extract_low _ _ _ _ (by decide)]; simp
  · unfold wordOfArg
    rw [show (0x00FFFFFF#32 : BitVec 32) = (0#8 ++ 0xFFFFFF#24 : BitVec 32) from rfl,
      BitVec.and_append]
    simp

/-- A builder operation stands for a CMD row. -/
@[simp] theorem Builder.instr_format (b : Builder) : b.instr.format = .cmd := by cases b <;> rfl

/-- Five bytes match a row as the builder operation that stands for it. -/
theorem matchForm_command {cfg : WireConfig} {C : CommandBytes} {b : Builder}
    (h : matchCommand cfg C = .accepted b) : matchForm cfg (.command C) = .accepted b.instr := by
  simp only [matchForm, h]

end Sys2Proof
end

