-- ==== Sys2Proof/Laws/Memory.lean ====
section
/-! SUPPORT. The laws of the frame space: reading after writing, and its canonical form. -/

namespace Sys2Proof.Machine

open Sys2Proof

@[simp] theorem Memory.read_nil (o : Nat) : Memory.read [] o = none := rfl

theorem Memory.read_cons (c : Host.Cell) (m : Memory) (o : Nat) :
    Memory.read (c :: m) o = if c.1 = o then some c.2 else Memory.read m o := rfl

/-- A read of the offset just written gives the byte written. -/
@[simp] theorem Memory.read_write_same (m : Memory) (o : Fin 20) (b : Byte) :
    (m.write o b).read o.val = some b := by
  induction m with
  | nil => simp [Memory.write, Memory.read]
  | cons c rest ih =>
    simp only [Memory.write]
    split
    · simp [Memory.read]
    · split
      · simp [Memory.read]
      · next h => simp [Memory.read, ih, Ne.symm h]

/-- A write leaves every other offset alone. -/
theorem Memory.read_write_other (m : Memory) (o : Fin 20) (b : Byte) {a : Nat} (h : a ≠ o.val) :
    (m.write o b).read a = m.read a := by
  induction m with
  | nil => simp [Memory.write, Memory.read, Ne.symm h, Memory.unlisted]
  | cons c rest ih =>
    simp only [Memory.write]
    split
    · simp [Memory.read, Ne.symm h]
    · split
      · next e => simp [Memory.read, ← e, Ne.symm h]
      · simp [Memory.read, ih]

/-- What an offset reads as after a write. -/
theorem Memory.read_write (m : Memory) (o : Fin 20) (b : Byte) (a : Nat) :
    (m.write o b).read a = if a = o.val then some b else m.read a := by
  split
  · next h => rw [h]; exact Memory.read_write_same m o b
  · next h => exact Memory.read_write_other m o b h

/-- A write keeps what a read could answer. -/
theorem Memory.isSome_read_write (m : Memory) (o : Fin 20) (b : Byte) {a : Nat}
    (h : (m.read a).isSome = true) : ((m.write o b).read a).isSome = true := by
  rw [Memory.read_write]; split <;> simp [h]

/-- A write keeps the order of the cells from any lower bound below its own offset. -/
theorem Memory.write_sortedFrom {m : Memory} {n : Nat} (h : Memory.sortedFrom n m = true)
    (o : Fin 20) (b : Byte) (ho : n ≤ o.val) : Memory.sortedFrom n (m.write o b) = true := by
  induction m generalizing n with
  | nil => simp [Memory.write, Memory.sortedFrom, ho]
  | cons c rest ih =>
    simp only [Memory.sortedFrom, Bool.and_eq_true, decide_eq_true_eq] at h
    obtain ⟨⟨h1, h2⟩, h3⟩ := h
    simp only [Memory.write]
    split
    · next hlt => simp [Memory.sortedFrom, ho, h2, h3]; omega
    · split
      · next he => simp [Memory.sortedFrom, he, h3]; omega
      · simp only [Memory.sortedFrom, h1, h2, decide_true, Bool.true_and]
        exact ih h3 (by omega)

/-- A write keeps the canonical form. -/
theorem Memory.write_wf {m : Memory} (h : m.wf = true) (o : Fin 20) (b : Byte) :
    (m.write o b).wf = true := Memory.write_sortedFrom h o b (Nat.zero_le _)

/-- An empty frame space is in canonical form. -/
@[simp] theorem Memory.wf_nil : Memory.wf [] = true := rfl

/-- Taking k bytes from o answers exactly the bytes those offsets hold. -/
theorem Memory.bytes_eq_some (m : Memory) (k o : Nat) (l : List Byte) :
    m.bytes o k = some l ↔ l.length = k ∧ ∀ i, i < k → m.read (o + i) = l[i]? := by
  induction k generalizing o l with
  | zero =>
    constructor
    · intro h; cases h; exact ⟨rfl, fun i hi => absurd hi (Nat.not_lt_zero i)⟩
    · rintro ⟨h, _⟩; rw [List.length_eq_zero_iff.mp h]; rfl
  | succ k ih =>
    simp only [Memory.bytes]
    cases l with
    | nil =>
      constructor
      · intro h; split at h <;> simp at h
      · rintro ⟨h, _⟩; cases h
    | cons b l =>
      constructor
      · intro h
        split at h
        · cases h
        · next b' hb =>
          obtain ⟨l', hl, he⟩ := Option.map_eq_some_iff.mp h
          cases he
          obtain ⟨hlen, hr⟩ := (ih (o + 1) l).mp hl
          refine ⟨by simp [hlen], fun i hi => ?_⟩
          cases i with
          | zero => simpa using hb
          | succ i =>
            rw [List.getElem?_cons_succ, ← hr i (by omega)]
            congr 1; omega
      · rintro ⟨hlen, hr⟩
        have h0 : m.read o = some b := by simpa using hr 0 (by omega)
        have hl : m.bytes (o + 1) k = some l := (ih (o + 1) l).mpr
          ⟨by simpa using hlen, fun i hi => by
            have := hr (i + 1) (by omega)
            rw [List.getElem?_cons_succ] at this
            rw [← this]; congr 1; omega⟩
        rw [h0, hl]; rfl

/-- Twenty bytes are a frame exactly when they are its bytes. -/
theorem frameOfList_eq_some (l : List Byte) (F : Frame) :
    frameOfList l = some F ↔ l = F.toList := by
  unfold frameOfList
  constructor
  · intro h
    split at h
    · rw [← Option.some.inj h]; rfl
    · cases h
  · rintro rfl
    have hs : F.toList.toArray.size = 20 := by simp
    rw [dif_pos hs]
    exact congrArg some (Vector.toArray_inj.mp (by simp [Vector.toList]))

/-- The frame is taken exactly when every offset holds one of its bytes. -/
theorem Memory.frame_eq_some (m : Memory) (F : Frame) :
    m.frame = some F ↔ ∀ o : Fin 20, m.read o.val = some F[o.val] := by
  unfold Memory.frame
  rw [Option.bind_eq_some_iff]
  constructor
  · rintro ⟨l, hl, hF⟩ o
    obtain rfl := (frameOfList_eq_some l F).mp hF
    have := ((Memory.bytes_eq_some m 20 0 _).mp hl).2 o.val o.isLt
    rw [Nat.zero_add] at this
    rw [this]; simp
  · intro h
    refine ⟨F.toList, (Memory.bytes_eq_some m 20 0 _).mpr ⟨by simp, fun i hi => ?_⟩,
      (frameOfList_eq_some _ F).mpr rfl⟩
    rw [Nat.zero_add, h ⟨i, hi⟩]; simp [hi]

/-- A frame can be taken as soon as every offset holds a byte. -/
theorem Memory.frame_isSome {m : Memory} (h : ∀ o : Fin 20, (m.read o.val).isSome = true) :
    ∃ F, m.frame = some F := by
  refine ⟨Vector.ofFn fun o => (m.read o.val).get (h o), (Memory.frame_eq_some m _).mpr fun o => ?_⟩
  rw [Vector.getElem_ofFn, Option.some_get]

end Sys2Proof.Machine
end

