-- ==== Sys2Proof/Laws/State.lean ====
section
/-! SUPPORT. What each update of the state leaves and sets, field by field. -/

namespace Sys2Proof.Machine

open Sys2Proof

@[simp] theorem State.respond_phase (s : State) (r : Response) : (s.respond r).phase = s.phase := rfl
@[simp] theorem State.respond_cursor (s : State) (r : Response) : (s.respond r).cursor = s.cursor := rfl
@[simp] theorem State.respond_buf (s : State) (r : Response) : (s.respond r).buf = s.buf := rfl
@[simp] theorem State.respond_cfg (s : State) (r : Response) : (s.respond r).cfg = s.cfg := rfl
@[simp] theorem State.respond_pending (s : State) (r : Response) :
    (s.respond r).pending = s.pending := rfl
@[simp] theorem State.respond_resp (s : State) (r : Response) : (s.respond r).resp = some r := rfl

@[simp] theorem State.assertReset_phase (s : State) : s.assertReset.phase = .seekHeading := rfl
@[simp] theorem State.assertReset_cursor (s : State) : s.assertReset.cursor = 0 := rfl
@[simp] theorem State.assertReset_buf (s : State) : s.assertReset.buf = s.buf := rfl
@[simp] theorem State.assertReset_cfg (s : State) : s.assertReset.cfg = s.cfg := rfl
@[simp] theorem State.assertReset_pending (s : State) : s.assertReset.pending = s.pending := rfl
@[simp] theorem State.assertReset_resp (s : State) : s.assertReset.resp = none := rfl

@[simp] theorem State.withFetchWord_phase (s : State) (n w : Nat) :
    (s.withFetchWord n w).phase = s.phase := rfl
@[simp] theorem State.withFetchWord_cursor (s : State) (n w : Nat) :
    (s.withFetchWord n w).cursor = s.cursor := rfl
@[simp] theorem State.withFetchWord_buf (s : State) (n w : Nat) :
    (s.withFetchWord n w).buf = s.buf := rfl
@[simp] theorem State.withFetchWord_cfg (s : State) (n w : Nat) :
    (s.withFetchWord n w).cfg = s.cfg := rfl
@[simp] theorem State.withFetchWord_pending (s : State) (n w : Nat) :
    (s.withFetchWord n w).pending = formInputs s.cfg (tableForm n w) ++ s.pending := rfl
@[simp] theorem State.withFetchWord_resp (s : State) (n w : Nat) :
    (s.withFetchWord n w).resp = s.resp := rfl

end Sys2Proof.Machine
end

