-- ==== Sys2Proof/Laws/Ops.lean ====
section
/-! SUPPORT. What each shared operation can do, said once. -/

namespace Sys2Proof.Machine

open Sys2Proof

/-- An error gives a next state that differs in the response alone. -/
@[simp] theorem State.raise_eq (s : State) (e : BlockError) :
    s.raise e = .next (s.respond (.error e)) := rfl

/-- Status OK gives a next state that differs in the response alone. -/
@[simp] theorem State.ok_eq (s : State) (p : Payload) : s.ok p = .next (s.respond (.ok p)) := rfl

/-- Building a command answers its five bytes. -/
theorem State.build_eq (s : State) (code lo hi : Byte) :
    s.build code lo hi = .next (s.respond (.ok (.command (commandBytes code lo hi)))) := rfl

/-- R130's check passes exactly when it is off or the byte is 0x00. -/
theorem regHiAccepted_iff (cfg : WireConfig) (b : Byte) :
    regHiAccepted cfg b = true ↔ (cfg.checkRegHi = true → b = regHiExpected) := by
  unfold regHiAccepted
  cases cfg.checkRegHi <;> simp

/-- A register-echo kind answers its sample or the unrecognized frame, and changes nothing else. -/
theorem State.echo_cases (s : State) (b : Byte) (F : Frame) (S : Sample) :
    (regHiAccepted s.cfg b = true ∧ s.echo b F S = .next (s.respond (.ok (.sample S)))) ∨
      (regHiAccepted s.cfg b = false
        ∧ s.echo b F S = .next (s.respond (.error (.unrecognizedFrame F)))) := by
  unfold State.echo
  cases h : regHiAccepted s.cfg b <;> simp

/-- Setting a rate builds the command of a code in the table, and names any other as bad. -/
theorem State.buildRate_cases (s : State) (rate : Byte) :
    (inRateTable s.cfg rate = true
        ∧ s.buildRate rate = .next (s.respond (.ok (.command (commandBytes cmdRate rate 0#8))))) ∨
      (inRateTable s.cfg rate = false
        ∧ s.buildRate rate = .next (s.respond (.error (.badArgument rate)))) := by
  unfold State.buildRate
  cases h : inRateTable s.cfg rate <;> simp [State.build]

/-- Firmware update builds its command when FWUPD_CODE is bound and is refused otherwise. -/
theorem State.buildFwUpdate_cases (s : State) :
    (s.cfg.fwupdCode = none ∧ s.buildFwUpdate = .refused .fwUpdateUnbound) ∨
      ∃ c, s.cfg.fwupdCode = some c
        ∧ s.buildFwUpdate = .next (s.respond (.ok (.command (commandBytes c 0#8 0#8)))) := by
  unfold State.buildFwUpdate
  cases h : s.cfg.fwupdCode <;> simp [State.build]

/-- A rate code has a frequency exactly when it is in the table. -/
theorem rateHz_isSome (cfg : WireConfig) (rate : Byte) :
    (rateHz cfg.rateTable rate).isSome = inRateTable cfg rate := by
  unfold inRateTable
  induction cfg.rateTable with
  | nil => rfl
  | cons e rest ih =>
    simp only [rateHz, List.map_cons, List.contains_cons]
    split
    · next h => simp [h]
    · next h => simp only [ih]; rw [beq_eq_false_iff_ne.mpr (Ne.symm h)]; simp

/-- The frequency a code has stands with it in the table. -/
theorem rateHz_mem {l : List (Byte × Nat)} {rate : Byte} {f : Nat} (h : rateHz l rate = some f) :
    (rate, f) ∈ l := by
  induction l with
  | nil => cases h
  | cons e rest ih =>
    simp only [rateHz] at h
    split at h
    · next he => cases h; subst he; exact List.mem_cons_self
    · exact List.mem_cons_of_mem _ (ih h)

/-- One of the two entries is chosen. -/
theorem nearer_cases (mhz : Nat) (a b : Byte × Nat) : nearer mhz a b = a ∨ nearer mhz a b = b := by
  unfold nearer; split
  · exact .inr rfl
  · split
    · exact .inr rfl
    · exact .inl rfl

/-- The chosen entry is an entry of the table. -/
theorem nearestRate_mem {mhz : Nat} {l : List (Byte × Nat)} {e : Byte × Nat}
    (h : nearestRate mhz l = some e) : e ∈ l := by
  cases l with
  | nil => cases h
  | cons a rest =>
    obtain rfl := Option.some.inj h
    induction rest generalizing a with
    | nil => simp
    | cons b rest ih =>
      rw [List.foldl_cons]
      rcases nearer_cases mhz a b with h | h <;> rw [h]
      · rcases List.mem_cons.mp (ih a rfl) with h | h
        · rw [h]; simp
        · exact List.mem_cons_of_mem _ (List.mem_cons_of_mem _ h)
      · exact List.mem_cons_of_mem _ (ih b rfl)

/-- With all 20 bytes known the frame is emitted and the synchronizer seeks again. -/
theorem emitFrame_of_frame {s : State} {F : Frame} (h : s.buf.frame = some F) :
    emitFrame s = .next { s with
      cursor := 0, phase := .seekHeading, resp := some (completion s.cfg F) } := by
  unfold emitFrame; rw [h]; rfl

/-- Collecting before the last byte. -/
theorem feedCollecting_of_lt {s : State} (b : Byte) (h : s.cursor.val + 1 < 20) :
    feedCollecting b s = .next { s with
      buf := s.buf.write s.cursor b, cursor := ⟨s.cursor.val + 1, h⟩, resp := some .noFrame } := by
  unfold feedCollecting; rw [dif_pos h]; rfl

/-- Collecting the last byte. -/
theorem feedCollecting_of_last {s : State} (b : Byte) (h : ¬ s.cursor.val + 1 < 20) :
    feedCollecting b s = emitFrame { s with buf := s.buf.write s.cursor b } := by
  unfold feedCollecting; rw [dif_neg h]

/-- A frame decodes to the sample of its kind, or is rejected as it is classified. -/
theorem decodeSample_cases (cfg : WireConfig) (F : Frame) :
    (∃ k, classify cfg F = .accepted k ∧ decodeSample cfg F = .accepted (sampleOf cfg F k)) ∨
      (∃ r, classify cfg F = .rejected r ∧ decodeSample cfg F = .rejected r) := by
  unfold decodeSample
  cases classify cfg F with
  | accepted k => exact .inl ⟨k, rfl, rfl⟩
  | rejected r => exact .inr ⟨r, rfl, rfl⟩

/-- Taking an input gives an instruction in the same state, or a response that is an error, or a
reset. -/
theorem State.take_cases (s : State) (x : Input) :
    (∃ i, s.take x = .run i s) ∨ (∃ e, s.take x = .done (s.respond (.error e)))
      ∨ x = .reset ∧ s.take x = .done s.assertReset := by
  cases x with
  | request w d =>
    simp only [State.take]
    cases decodeRequest w d with
    | accepted i => exact .inl ⟨i, rfl⟩
    | rejected r => exact .inr (.inl ⟨_, rfl⟩)
  | frame F =>
    simp only [State.take]
    cases decodeFrame s.cfg F with
    | accepted i => exact .inl ⟨i, rfl⟩
    | rejected r => exact .inr (.inl ⟨_, rfl⟩)
  | builder b => exact .inl ⟨b.instr, rfl⟩
  | reset => exact .inr (.inr ⟨rfl, rfl⟩)

/-- A request word that decodes is run. -/
theorem State.take_request {s : State} {w : ReqWord} {d : DecIn} {i : Instr}
    (h : decodeRequest w d = .accepted i) : s.take (.request w d) = .run i s := by
  simp only [State.take, h]

/-- A frame that decodes is run. -/
theorem State.take_frame {s : State} {F : Frame} {i : Instr} (h : decodeFrame s.cfg F = .accepted i) :
    s.take (.frame F) = .run i s := by
  simp only [State.take, h]

/-- A builder is run by its name. -/
@[simp] theorem State.take_builder (s : State) (b : Builder) : s.take (.builder b) = .run b.instr s := rfl

/-- The reset input. -/
@[simp] theorem State.take_reset (s : State) : s.take .reset = .done s.assertReset := rfl

end Sys2Proof.Machine
end

