-- ==== Sys2Proof/Laws/Feed.lean ====
section
/-! SUPPORT. What FEED and taking an input can do, said once. -/

namespace Sys2Proof.Machine

open Sys2Proof

/-- A FEED answers in the same step and leaves the configuration and the inputs alone; or it is the
last byte of a frame that holds an unknown byte, and faults. -/
theorem execFeed_cases (b : Byte) (s : State) :
    (∃ t, execFeed b s = .next t ∧ t.cfg = s.cfg ∧ t.pending = s.pending ∧ t.resp.isSome = true) ∨
      (s.phase = .collecting ∧ s.cursor.val = 19 ∧ (s.buf.write s.cursor b).frame = none
        ∧ execFeed b s = .fault .unknownByte) := by
  unfold execFeed
  split
  · unfold feedSeekHeading
    split <;> exact .inl ⟨_, rfl, rfl, rfl, rfl⟩
  · unfold feedAwaitFlag
    dsimp only
    split_ifs <;> exact .inl ⟨_, rfl, rfl, rfl, rfl⟩
  · exact .inl ⟨_, rfl, rfl, rfl, rfl⟩
  · next hp =>
    by_cases h : s.cursor.val + 1 < 20
    · rw [feedCollecting_of_lt b h]
      exact .inl ⟨_, rfl, rfl, rfl, rfl⟩
    · rw [feedCollecting_of_last b h]
      cases hf : (s.buf.write s.cursor b).frame with
      | none =>
        refine .inr ⟨hp, by omega, rfl, ?_⟩
        unfold emitFrame
        rw [show ({ s with buf := s.buf.write s.cursor b } : State).buf.frame = none from hf]
      | some F =>
        rw [emitFrame_of_frame (s := { s with buf := s.buf.write s.cursor b }) hf]
        exact .inl ⟨_, rfl, rfl, rfl, rfl⟩

/-- Under a well-formed configuration, nothing issued means an idle step. -/
theorem State.fetch_nil {s : State} (hw : s.cfg.wf = true) (hp : s.pending = []) :
    s.fetch = .done { s with resp := none } := by
  simp [State.fetch, State.ifConfigured, hw, hp]

/-- Under a well-formed configuration the oldest input is taken, in the state without it and without an
older response. -/
theorem State.fetch_cons {s : State} {x : Input} {rest : List Input} (hw : s.cfg.wf = true)
    (hp : s.pending = x :: rest) :
    s.fetch = State.take { s with pending := rest, resp := none } x := by
  simp [State.fetch, State.ifConfigured, hw, hp]

/-- Under a well-formed configuration the reset input restarts the synchronizer. -/
theorem State.fetch_reset {s : State} {rest : List Input} (hw : s.cfg.wf = true)
    (hp : s.pending = .reset :: rest) : s.fetch = .done { s.assertReset with pending := rest } :=
  State.fetch_cons hw hp

/-- Under an ill-formed configuration nothing is taken. -/
theorem State.fetch_of_not_wf {s : State} (hw : s.cfg.wf = false) :
    s.fetch = .stop .illFormedConfig := by
  unfold State.fetch
  split <;> simp [State.ifConfigured, hw]

/-- Voltages up to 3.30 V, and from 4.00 V on, read the two ends of the table. -/
theorem battPercent_ends (cfg : WireConfig) (cv : Nat) :
    (cv ≤ 330 → battPercent cfg cv = cfg.battPct[0])
      ∧ (400 ≤ cv → battPercent cfg cv = cfg.battPct[70]) := by
  unfold battPercent
  refine ⟨fun h => by rw [if_pos h], fun h => ?_⟩
  rw [if_neg (by omega), dif_neg (by omega)]

/-- A battery voltage of 3.30 V to 4.00 V reads its own entry. -/
theorem battPercent_entry (cfg : WireConfig) (k : Nat) (hk : k < 71) :
    battPercent cfg (330 + k) = cfg.battPct[k] := by
  unfold battPercent
  by_cases h : k = 0
  · subst h; simp
  · rw [if_neg (by omega)]
    by_cases h2 : 330 + k < 400
    · rw [dif_pos h2]
      have : 330 + k - 330 = k := by omega
      simp only [this]
    · rw [dif_neg h2]
      have : k = 70 := by omega
      subst this; rfl

end Sys2Proof.Machine
end

