-- ==== Sys2Proof/Laws/PerInstr.lean ====
section
/-! SUPPORT. Statements about every instruction as syntax, one lemma for each constructor. -/

namespace Sys2Proof.Laws

open Sys2Proof

/-- The bytes that mark a raw form as one of a format (30_encoding.md R61 to R64). -/
def hasFormat : Format → RawForm → Prop
  | .frameS, .frame F => F[0] = heading ∧ F[1] = flagStream
  | .frameR, .frame F => F[0] = heading ∧ F[1] = flagReg
  | .cmd, .command C => C[0] = cmdHdr0 ∧ C[1] = cmdHdr1
  | .hreq, .request _ _ => True
  | _, _ => False

/-- An instruction is encoded in the format of its table row (R60, R74). -/
def EncodedFormat.Statement (i : Instr) : Prop :=
  ∀ (cfg : WireConfig) (f : RawForm), encode cfg i = some f → hasFormat i.format f

theorem EncodedFormat.frameStreamed (p : StreamFields) : EncodedFormat.Statement (.frameStreamed p) := by
  intro _ _ h; cases h; exact ⟨rfl, rfl⟩

theorem EncodedFormat.frameMag (e : EchoFields) : EncodedFormat.Statement (.frameMag e) := by
  intro _ _ h; cases h; exact ⟨rfl, rfl⟩

theorem EncodedFormat.frameQuat (e : EchoFields) : EncodedFormat.Statement (.frameQuat e) := by
  intro _ _ h; cases h; exact ⟨rfl, rfl⟩

theorem EncodedFormat.frameTemp (e : EchoFields) : EncodedFormat.Statement (.frameTemp e) := by
  intro _ _ h; cases h; exact ⟨rfl, rfl⟩

theorem EncodedFormat.frameBatt (e : EchoFields) : EncodedFormat.Statement (.frameBatt e) := by
  intro _ _ h; cases h; exact ⟨rfl, rfl⟩

theorem EncodedFormat.frameVersion (e : EchoFields) : EncodedFormat.Statement (.frameVersion e) := by
  intro _ _ h; cases h; exact ⟨rfl, rfl⟩

theorem EncodedFormat.frameDateTime (d : DateTimeFields) : EncodedFormat.Statement (.frameDateTime d) := by
  intro _ _ h; cases h; exact ⟨rfl, rfl⟩

theorem EncodedFormat.frameBurst (reg : Byte) (e : EchoFields) : EncodedFormat.Statement (.frameBurst reg e) := by
  intro _ _ h; cases h; exact ⟨rfl, rfl⟩

theorem EncodedFormat.cmdSave : EncodedFormat.Statement .cmdSave := by
  intro _ _ h; cases h; exact ⟨rfl, rfl⟩

theorem EncodedFormat.cmdRestore : EncodedFormat.Statement .cmdRestore := by
  intro _ _ h; cases h; exact ⟨rfl, rfl⟩

theorem EncodedFormat.cmdCalAcc : EncodedFormat.Statement .cmdCalAcc := by
  intro _ _ h; cases h; exact ⟨rfl, rfl⟩

theorem EncodedFormat.cmdCalMag : EncodedFormat.Statement .cmdCalMag := by
  intro _ _ h; cases h; exact ⟨rfl, rfl⟩

theorem EncodedFormat.cmdCalQuit : EncodedFormat.Statement .cmdCalQuit := by
  intro _ _ h; cases h; exact ⟨rfl, rfl⟩

theorem EncodedFormat.cmdSetRate (rate : Byte) : EncodedFormat.Statement (.cmdSetRate rate) := by
  intro _ _ h; cases h; exact ⟨rfl, rfl⟩

theorem EncodedFormat.cmdReadReg (reg : Byte) : EncodedFormat.Statement (.cmdReadReg reg) := by
  intro _ _ h; cases h; exact ⟨rfl, rfl⟩

theorem EncodedFormat.cmdTimeYm (yy mon : Byte) : EncodedFormat.Statement (.cmdTimeYm yy mon) := by
  intro _ _ h; cases h; exact ⟨rfl, rfl⟩

theorem EncodedFormat.cmdTimeDh (day hour : Byte) : EncodedFormat.Statement (.cmdTimeDh day hour) := by
  intro _ _ h; cases h; exact ⟨rfl, rfl⟩

theorem EncodedFormat.cmdTimeMs (min sec : Byte) : EncodedFormat.Statement (.cmdTimeMs min sec) := by
  intro _ _ h; cases h; exact ⟨rfl, rfl⟩

theorem EncodedFormat.cmdTimeMsec (ms : HalfWord) : EncodedFormat.Statement (.cmdTimeMsec ms) := by
  intro _ _ h; cases h; exact ⟨rfl, rfl⟩

theorem EncodedFormat.cmdFwUpdate : EncodedFormat.Statement .cmdFwUpdate := by
  intro cfg f h
  obtain ⟨c, _, rfl⟩ := Option.map_eq_some_iff.mp h
  exact ⟨rfl, rfl⟩

theorem EncodedFormat.feed (b : Byte) : EncodedFormat.Statement (.feed b) := by
  intro _ _ h; cases h; trivial

theorem EncodedFormat.decode (F : Frame) : EncodedFormat.Statement (.decode F) := by
  intro _ _ h; cases h; trivial

theorem EncodedFormat.encSave : EncodedFormat.Statement .encSave := by
  intro _ _ h; cases h; trivial

theorem EncodedFormat.encRestore : EncodedFormat.Statement .encRestore := by
  intro _ _ h; cases h; trivial

theorem EncodedFormat.encCalAcc : EncodedFormat.Statement .encCalAcc := by
  intro _ _ h; cases h; trivial

theorem EncodedFormat.encCalMag : EncodedFormat.Statement .encCalMag := by
  intro _ _ h; cases h; trivial

theorem EncodedFormat.encCalQuit : EncodedFormat.Statement .encCalQuit := by
  intro _ _ h; cases h; trivial

theorem EncodedFormat.encSetRate (rate : Byte) : EncodedFormat.Statement (.encSetRate rate) := by
  intro _ _ h; cases h; trivial

theorem EncodedFormat.encReadReg (reg : Byte) : EncodedFormat.Statement (.encReadReg reg) := by
  intro _ _ h; cases h; trivial

theorem EncodedFormat.encTimeYm (yy mon : Byte) : EncodedFormat.Statement (.encTimeYm yy mon) := by
  intro _ _ h; cases h; trivial

theorem EncodedFormat.encTimeDh (day hour : Byte) : EncodedFormat.Statement (.encTimeDh day hour) := by
  intro _ _ h; cases h; trivial

theorem EncodedFormat.encTimeMs (min sec : Byte) : EncodedFormat.Statement (.encTimeMs min sec) := by
  intro _ _ h; cases h; trivial

theorem EncodedFormat.encTimeMsec (ms : HalfWord) : EncodedFormat.Statement (.encTimeMsec ms) := by
  intro _ _ h; cases h; trivial

theorem EncodedFormat.encFwUpdate : EncodedFormat.Statement .encFwUpdate := by
  intro _ _ h; cases h; trivial

theorem EncodedFormat.lutBatt (cv : HalfWord) : EncodedFormat.Statement (.lutBatt cv) := by
  intro _ _ h; cases h; trivial

theorem EncodedFormat.lutRateHz (rate : Byte) : EncodedFormat.Statement (.lutRateHz rate) := by
  intro _ _ h; cases h; trivial

theorem EncodedFormat.lutHzRate (mhz : BitVec 24) : EncodedFormat.Statement (.lutHzRate mhz) := by
  intro _ _ h; cases h; trivial

end Sys2Proof.Laws
end

