-- ==== Sys2Proof/Tests/Slice0.lean ====
section
/-! SUPPORT. The model's own tests. Expected values are those of 95_test_vectors.md (V-…, S…), of the
examples the rules give, or words written out from 30_encoding.md's tables; none is the model's own
answer. -/

namespace Sys2Proof.Tests

open Sys2Proof Sys2Proof.Machine

/-! ### Helpers -/

/-- R7's default bindings. -/
def dflt : WireConfig := WireConfig.default

/-- The default bindings with FWUPD_CODE bound to 0x5A. -/
def bound : WireConfig := { dflt with fwupdCode := some 0x5A#8 }

/-- The default bindings with CHECK_REG_HI. -/
def checking : WireConfig := { dflt with checkRegHi := true }

/-- A frame whose first bytes are given and whose others are zero (the "…" of 95_test_vectors.md). -/
def frame20 (l : List Byte) : Frame := Vector.ofFn fun k => l.getD k.val 0#8

/-- A frame space that holds the given bytes from offset 0 on. -/
def cells (l : List Byte) : Memory := l.zipIdx.map fun (b, k) => (k, b)

/-- The reset state with a phase, a cursor and bytes of `buf`. -/
def held (p : Phase) (c : Fin 20) (l : List Byte) : State :=
  { State.reset with phase := p, cursor := c, buf := cells l }

/-- What a step answers. -/
def answer : Result → Option Response
  | .next t => t.resp
  | _ => none

/-- Where a step leaves the synchronizer. -/
def place : Result → Option (Phase × Fin 20)
  | .next t => some (t.phase, t.cursor)
  | _ => none

/-- The fault a step ends in. -/
def faultOf : Result → Option Fault
  | .fault f => some f
  | _ => none

/-- The refusal a step ends in. -/
def refusalOf : Result → Option Refusal
  | .refused r => some r
  | _ => none

/-- The byte of `buf` at an offset after a step. -/
def byteAfter (o : Nat) : Result → Option Byte
  | .next t => t.buf.read o
  | _ => none

/-- The step that takes an input in a state. -/
def onInput (x : Input) (s : State := State.reset) : Result := step { s with pending := [x] }

/-- The step that takes a request word. -/
def onWord (w : ReqWord) (s : State := State.reset) : Result := onInput (.request w 0) s

/-- The step that takes DECODE of a frame. -/
def onDecode (F : Frame) (s : State := State.reset) : Result :=
  onInput (.request 0x02000000#32 F.toDecIn) s

/-! ### Well-formedness: each check refuses a term that breaks it -/

theorem test_default_wf : dflt.wf = true := by decide
theorem test_default_commandsApart : dflt.commandsApart = true := by decide

theorem test_wf_refuses_equal_registers :
    ({ dflt with regQuat := 0x3A#8 } : WireConfig).regsDistinct = false
      ∧ ({ dflt with regQuat := 0x3A#8 } : WireConfig).wf = false := by decide

theorem test_wf_refuses_nine_rates :
    ({ dflt with rateTable := defaultRateTable.eraseIdx 3 } : WireConfig).ratesTen = false
      ∧ ({ dflt with rateTable := defaultRateTable.eraseIdx 3 } : WireConfig).wf = false := by decide

theorem test_wf_refuses_equal_codes :
    ({ dflt with rateTable := defaultRateTable.set 0 (0x02#8, 200) } : WireConfig).rateCodesDistinct
        = false
      ∧ ({ dflt with rateTable := defaultRateTable.set 0 (0x02#8, 200) } : WireConfig).wf = false := by
  decide

theorem test_wf_refuses_equal_frequencies :
    ({ dflt with rateTable := defaultRateTable.set 1 (0x02#8, 200) } : WireConfig).rateFreqsDistinct
        = false
      ∧ ({ dflt with rateTable := defaultRateTable.set 1 (0x02#8, 200) } : WireConfig).wf = false := by
  decide

theorem test_wf_refuses_without_100Hz :
    ({ dflt with rateTable := defaultRateTable.set 8 (0x0A#8, 100000) } : WireConfig).rateHas100Hz
        = false
      ∧ ({ dflt with rateTable := defaultRateTable.set 8 (0x0A#8, 100000) } : WireConfig).wf = false := by
  decide

theorem test_wf_refuses_lower_than_200mHz :
    ({ dflt with rateTable := defaultRateTable.set 1 (0x02#8, 199) } : WireConfig).rateLowest = false
      ∧ ({ dflt with rateTable := defaultRateTable.set 1 (0x02#8, 199) } : WireConfig).wf = false := by
  decide

theorem test_wf_refuses_above_200Hz :
    ({ dflt with rateTable := defaultRateTable.set 7 (0x08#8, 200001) } : WireConfig).rateHighest
        = false
      ∧ ({ dflt with rateTable := defaultRateTable.set 7 (0x08#8, 200001) } : WireConfig).wf = false := by
  decide

theorem test_wf_refuses_missed_anchor :
    ({ dflt with battPct := defaultBattPct.set 70 99 } : WireConfig).battAnchors = false
      ∧ ({ dflt with battPct := defaultBattPct.set 70 99 } : WireConfig).wf = false := by decide

theorem test_wf_refuses_decreasing_percentages :
    ({ dflt with battPct := defaultBattPct.set 5 80 } : WireConfig).battNonDecreasing = false
      ∧ ({ dflt with battPct := defaultBattPct.set 5 80 } : WireConfig).wf = false := by decide

theorem test_wf_refuses_percentage_over_100 :
    ({ dflt with battPct := defaultBattPct.set 69 101 } : WireConfig).battInRange = false
      ∧ ({ dflt with battPct := defaultBattPct.set 69 101 } : WireConfig).wf = false := by decide

theorem test_commandsApart_refuses_shared_code :
    ({ dflt with cmdRead := 0x30#8 } : WireConfig).commandsApart = false
      ∧ ({ dflt with fwupdCode := some 0x00#8 } : WireConfig).commandsApart = false := by decide

theorem test_commandsApart_refuses_shared_argument :
    ({ dflt with argRestore := 0x00#8 } : WireConfig).commandsApart = false
      ∧ ({ dflt with argCalMag := 0x01#8 } : WireConfig).commandsApart = false := by decide

theorem test_instr_wf_refuses_byte_three :
    (Instr.frameMag ⟨1#8, 0, 0, 0, 0, 0, 0, 0, 0⟩).wf checking = false
      ∧ (Instr.frameMag ⟨1#8, 0, 0, 0, 0, 0, 0, 0, 0⟩).wf dflt = true := by decide

theorem test_instr_wf_refuses_named_burst :
    (Instr.frameBurst 0x64#8 ⟨0#8, 0, 0, 0, 0, 0, 0, 0, 0⟩).wf dflt = false
      ∧ (Instr.frameBurst 0x65#8 ⟨0#8, 0, 0, 0, 0, 0, 0, 0, 0⟩).wf dflt = true := by decide

theorem test_instr_wf_refuses_unbound_fw_update :
    Instr.cmdFwUpdate.wf dflt = false ∧ Instr.cmdFwUpdate.wf bound = true := by decide

/-! ### Decoding: words written out from the encoding tables -/

/-- FRAME-S (R62): AX = 0x0800 at offset 2, YAW = 0x8001 at offset 18. -/
theorem test_decode_frame_streamed :
    decodeFrame dflt #v[0x55, 0x61, 0x00, 0x08, 0x02, 0x03, 0x04, 0x05, 0x06, 0x07, 0x08, 0x09, 0x0A,
      0x0B, 0x0C, 0x0D, 0x0E, 0x0F, 0x01, 0x80]
      = .accepted (.frameStreamed ⟨0x0800, 0x0302, 0x0504, 0x0706, 0x0908, 0x0B0A, 0x0D0C, 0x0F0E,
          0x8001⟩) := by decide

/-- FRAME-R (R63): REG = REG_MAG, REGHI, then V0..V7 from offset 4. -/
theorem test_decode_frame_mag :
    decodeFrame dflt #v[0x55, 0x71, 0x3A, 0x7E, 0x10, 0x00, 0xF0, 0xFF, 0x00, 0x80, 1, 2, 3, 4, 5, 6, 7,
      8, 9, 10]
      = .accepted (.frameMag ⟨0x7E, 0x0010, 0xFFF0, 0x8000, 0x0201, 0x0403, 0x0605, 0x0807, 0x0A09⟩) := by
  decide

theorem test_decode_frame_quat :
    decodeFrame dflt (frame20 [0x55, 0x71, 0x51, 0x00, 0x00, 0x40, 0xFF, 0x7F])
      = .accepted (.frameQuat ⟨0, 0x4000, 0x7FFF, 0, 0, 0, 0, 0, 0⟩) := by decide

theorem test_decode_frame_temp :
    decodeFrame dflt (frame20 [0x55, 0x71, 0x40, 0x00, 0xE6, 0x09])
      = .accepted (.frameTemp ⟨0, 0x09E6, 0, 0, 0, 0, 0, 0, 0⟩) := by decide

theorem test_decode_frame_batt :
    decodeFrame dflt (frame20 [0x55, 0x71, 0x64, 0x00, 0x90, 0x01])
      = .accepted (.frameBatt ⟨0, 0x0190, 0, 0, 0, 0, 0, 0, 0⟩) := by decide

theorem test_decode_frame_version :
    decodeFrame dflt (frame20 [0x55, 0x71, 0x2E, 0x00, 0x34, 0x12])
      = .accepted (.frameVersion ⟨0, 0x1234, 0, 0, 0, 0, 0, 0, 0⟩) := by decide

/-- DateTime layout (R63): single bytes at 4..9, the millisecond word at 10. -/
theorem test_decode_frame_datetime :
    decodeFrame dflt (frame20 [0x55, 0x71, 0x30, 0x00, 24, 11, 10, 22, 45, 59, 0xE7, 0x03, 0x02, 0x01])
      = .accepted (.frameDateTime ⟨0, 24, 11, 10, 22, 45, 59, 999, 0x0102, 0, 0, 0⟩) := by decide

theorem test_decode_frame_burst :
    decodeFrame dflt (frame20 [0x55, 0x71, 0x03, 0x00, 0x09, 0x00])
      = .accepted (.frameBurst 0x03 ⟨0, 9, 0, 0, 0, 0, 0, 0, 0⟩) := by decide

/-- No frame (R68): a wrong heading, a wrong flag, and byte 3 under CHECK_REG_HI. -/
theorem test_decode_frame_rejects :
    decodeFrame dflt (frame20 [0x54, 0x61]) = .rejected .badHeading
      ∧ decodeFrame dflt (frame20 [0x55, 0x55, 0x61]) = .rejected .badFlag
      ∧ decodeFrame checking (frame20 [0x55, 0x71, 0x64, 0x01]) = .rejected .badRegHi := by decide

/-- Five bytes match the CMD row they are written from (R69 with R7's defaults). -/
theorem test_match_commands_settings :
    matchCommand dflt #v[0xFF, 0xAA, 0x00, 0x00, 0x00] = .accepted .save
      ∧ matchCommand dflt #v[0xFF, 0xAA, 0x00, 0x01, 0x00] = .accepted .restore
      ∧ matchCommand dflt #v[0xFF, 0xAA, 0x01, 0x01, 0x00] = .accepted .calAcc
      ∧ matchCommand dflt #v[0xFF, 0xAA, 0x01, 0x07, 0x00] = .accepted .calMag
      ∧ matchCommand dflt #v[0xFF, 0xAA, 0x01, 0x00, 0x00] = .accepted .calQuit
      ∧ matchCommand dflt #v[0xFF, 0xAA, 0x03, 0x09, 0x00] = .accepted (.setRate 0x09)
      ∧ matchCommand dflt #v[0xFF, 0xAA, 0x27, 0x64, 0x00] = .accepted (.readReg 0x64) := by decide

theorem test_match_commands_time :
    matchCommand dflt #v[0xFF, 0xAA, 0x30, 0x18, 0x0B] = .accepted (.timeYm 24 11)
      ∧ matchCommand dflt #v[0xFF, 0xAA, 0x31, 0x0B, 0x16] = .accepted (.timeDh 11 22)
      ∧ matchCommand dflt #v[0xFF, 0xAA, 0x32, 0x2D, 0x3B] = .accepted (.timeMs 45 59)
      ∧ matchCommand dflt #v[0xFF, 0xAA, 0x33, 0xE7, 0x03] = .accepted (.timeMsec 999) := by decide

/-- CMD.FW_UPDATE: its CODE is FWUPD_CODE, and open while that is unbound (R74). -/
theorem test_match_command_fw_update :
    matchCommand bound #v[0xFF, 0xAA, 0x5A, 0x00, 0x00] = .accepted .fwUpdate
      ∧ matchCommand bound #v[0xFF, 0xAA, 0x5B, 0x00, 0x00] = .rejected .unknownCommand
      ∧ matchCommand dflt #v[0xFF, 0xAA, 0x5B, 0x00, 0x00] = .accepted .fwUpdate := by decide

theorem test_match_command_rejects :
    matchCommand dflt #v[0xFE, 0xAA, 0x00, 0x00, 0x00] = .rejected .badCommandHeader
      ∧ matchCommand dflt #v[0xFF, 0xAA, 0x00, 0x02, 0x00] = .rejected .unknownCommand
      ∧ matchCommand dflt #v[0xFF, 0xAA, 0x00, 0x00, 0x01] = .rejected .unknownCommand := by decide

/-- The request words of 95_test_vectors.md section 2. -/
theorem test_decode_requests_feed_encode :
    decodeTableWord 32 0x01000055 = some (.feed 0x55)
      ∧ decodeTableWord 32 0x10000000 = some .encSave
      ∧ decodeTableWord 32 0x11000000 = some .encRestore
      ∧ decodeTableWord 32 0x12000000 = some .encCalAcc
      ∧ decodeTableWord 32 0x13000000 = some .encCalMag
      ∧ decodeTableWord 32 0x14000000 = some .encCalQuit
      ∧ decodeTableWord 32 0x15000009 = some (.encSetRate 0x09)
      ∧ decodeTableWord 32 0x16000064 = some (.encReadReg 0x64) := by decide

theorem test_decode_requests_time_lookups :
    decodeTableWord 32 0x17000B18 = some (.encTimeYm 24 11)
      ∧ decodeTableWord 32 0x1800160B = some (.encTimeDh 11 22)
      ∧ decodeTableWord 32 0x19003B2D = some (.encTimeMs 45 59)
      ∧ decodeTableWord 32 0x1A0003E7 = some (.encTimeMsec 999)
      ∧ decodeTableWord 32 0x1B000000 = some .encFwUpdate
      ∧ decodeTableWord 32 0x20000190 = some (.lutBatt 400)
      ∧ decodeTableWord 32 0x21000009 = some (.lutRateHz 0x09)
      ∧ decodeTableWord 32 0x220186A0 = some (.lutHzRate 100000) := by decide

/-- DEC_IN carries frame byte k at bits 8k+7..8k (R66, 95_test_vectors.md section 2). -/
theorem test_decode_request_decode :
    decodeRequest 0x02000000 0x0000000000000000000000000000000008006155
      = .accepted (.decode (frame20 [0x55, 0x61, 0x00, 0x08])) := by decide

/-- V-ILL-1 to V-ILL-6, V-SYNC-20, V-SYNC-21, V-DEC-27, V-LUT-9. -/
theorem test_decode_request_rejects :
    [0x00000000#32, 0x03000000#32, 0x1C000000#32, 0x23000000#32, 0xFF000000#32, 0x0F000000#32].map
        (decodeRequest · 0) = List.replicate 6 (.rejected .unassignedOp)
      ∧ [0x01000155#32, 0x01FF0055#32, 0x02000001#32, 0x20010190#32].map (decodeRequest · 0)
        = List.replicate 4 (.rejected .reservedBits) := by decide

/-- FRAME and CMD table words, byte 0 most significant (R74); the bytes in the other order are none. -/
theorem test_decode_table_words :
    decodeTableWord 24 0x557140 = some (.frameTemp ⟨0, 0, 0, 0, 0, 0, 0, 0, 0⟩)
      ∧ decodeTableWord 24 0x407155 = none ∧ decodeTableWord 24 0x3A6155 = none
      ∧ decodeTableWord 40 0xFFAA030900 = some (.cmdSetRate 0x09)
      ∧ decodeTableWord 40 0x000903AAFF = none := by decide

/-- A CMD row's bits come to the block as a call of its builder (R74). -/
theorem test_command_word_is_a_call :
    (State.reset.withFetchWord 40 0xFFAA270500).pending = [.builder (.readReg 0x05)]
      ∧ (State.reset.withFetchWord 40 0x000527AAFF).pending = [] := by decide

/-! ### FEED -/

/-- V-SYNC-1, V-SYNC-2, V-SYNC-3. -/
theorem test_feed_seekHeading :
    place (onWord 0x01000000) = some (.seekHeading, 0) ∧ place (onWord 0x01000061) = some (.seekHeading, 0)
      ∧ place (onWord 0x01000055) = some (.awaitFlag, 1)
      ∧ byteAfter 0 (onWord 0x01000055) = some 0x55
      ∧ answer (onWord 0x01000055) = some .noFrame := by decide

/-- V-SYNC-4, V-SYNC-5, V-SYNC-6, V-SYNC-9. -/
theorem test_feed_awaitFlag :
    place (onWord 0x01000061 (held .awaitFlag 1 [0x55])) = some (.collecting, 2)
      ∧ place (onWord 0x01000071 (held .awaitFlag 1 [0x55])) = some (.awaitRegister, 2)
      ∧ place (onWord 0x01000055 (held .awaitFlag 1 [0x55])) = some (.awaitFlag, 1)
      ∧ byteAfter 1 (onWord 0x01000055 (held .awaitFlag 1 [0x55])) = some 0x55
      ∧ place (onWord 0x01000099 (held .awaitFlag 1 [0x55])) = some (.seekHeading, 0)
      ∧ byteAfter 1 (onWord 0x01000099 (held .awaitFlag 1 [0x55])) = some 0x99 := by decide

/-- V-SYNC-11, V-SYNC-13, V-SYNC-15. -/
theorem test_feed_payload :
    place (onWord 0x01000055 (held .awaitRegister 2 [0x55, 0x71])) = some (.collecting, 3)
      ∧ byteAfter 2 (onWord 0x01000055 (held .awaitRegister 2 [0x55, 0x71])) = some 0x55
      ∧ place (onWord 0x01000055 (held .collecting 2 [0x55, 0x61])) = some (.collecting, 3)
      ∧ place (onWord 0x0100007F (held .collecting 18 [0x55, 0x61])) = some (.collecting, 19)
      ∧ byteAfter 18 (onWord 0x0100007F (held .collecting 18 [0x55, 0x61])) = some 0x7F := by decide

/-- The 19 bytes of V-SYNC-17. -/
def battery19 : State :=
  held .collecting 19 [0x55, 0x71, 0x64, 0x00, 0x90, 0x01, 0, 0, 0, 0, 0, 0, 0, 0, 0, 0, 0, 0, 0]

/-- The 19 bytes of V-SYNC-18, under CHECK_REG_HI. -/
def battery19Checked : State :=
  { held .collecting 19 [0x55, 0x71, 0x64, 0x01, 0x90, 0x01, 0, 0, 0, 0, 0, 0, 0, 0, 0, 0, 0, 0, 0] with
    cfg := checking }

/-- V-SYNC-17 and V-SYNC-18. -/
theorem test_feed_last_byte :
    answer (onWord 0x01000000 battery19) = some (.ok (.frame
        (frame20 [0x55, 0x71, 0x64, 0x00, 0x90, 0x01]) (.batteryVoltage ⟨400, 100⟩)))
      ∧ place (onWord 0x01000000 battery19) = some (.seekHeading, 0)
      ∧ answer (onWord 0x01000000 battery19Checked)
        = some (.error (.unrecognizedFrame (frame20 [0x55, 0x71, 0x64, 0x01, 0x90, 0x01])))
      ∧ place (onWord 0x01000000 battery19Checked) = some (.seekHeading, 0) := by decide

/-- R30: a byte that nothing has written is not read. -/
theorem test_feed_unknown_byte_faults :
    faultOf (onWord 0x01000000 (held .collecting 19 [0x55, 0x61])) = some .unknownByte := by decide

/-- V-SYNC-28. -/
theorem test_reset_input :
    place (step { battery19 with pending := [.reset] }) = some (.seekHeading, 0)
      ∧ byteAfter 4 (step { battery19 with pending := [.reset] }) = some 0x90
      ∧ answer (step { battery19 with pending := [.reset] }) = none := by decide

/-! ### DECODE and the frame kinds -/

/-- V-DEC-2. -/
theorem test_decode_streamed :
    answer (onDecode #v[0x55, 0x61, 0xFF, 0x7F, 0x00, 0x80, 0x00, 0x00, 0xFF, 0x7F, 0x00, 0x80, 0x00,
      0x00, 0xFF, 0x7F, 0x00, 0x80, 0x00, 0x00]) = some (.ok (.sample (.streamed
        ⟨⟨32767, 2048⟩, ⟨-32768, 2048⟩, ⟨0, 2048⟩⟩ ⟨⟨4095875, 2048⟩, ⟨-4096000, 2048⟩, ⟨0, 2048⟩⟩
        ⟨⟨1474515, 8192⟩, ⟨-1474560, 8192⟩, ⟨0, 8192⟩⟩))) := by decide

/-- V-DEC-22, V-DEC-19, V-DEC-24. -/
theorem test_decode_refuses :
    answer (onDecode (frame20 [0x54, 0x61, 0x00, 0x08]))
        = some (.error (.unrecognizedFrame (frame20 [0x54, 0x61, 0x00, 0x08])))
      ∧ answer (onDecode (frame20 [0x55, 0x99])) = some (.error (.unrecognizedFrame (frame20 [0x55, 0x99])))
      ∧ answer (onDecode (frame20 [0x55, 0x71, 0x64, 0x01]) { State.reset with cfg := checking })
        = some (.error (.unrecognizedFrame (frame20 [0x55, 0x71, 0x64, 0x01]))) := by decide

/-- V-DEC-3's acceleration and yaw, as a direct call. -/
theorem test_frame_streamed :
    answer (onInput (.frame #v[0x55, 0x61, 0xFF, 0xFF, 0x01, 0x00, 0x00, 0x00, 0x10, 0x00, 0xF0, 0xFF,
      0x00, 0x00, 0x00, 0x40, 0x00, 0xC0, 0x55, 0x55])) = some (.ok (.sample (.streamed
        ⟨⟨-1, 2048⟩, ⟨1, 2048⟩, ⟨0, 2048⟩⟩ ⟨⟨2000, 2048⟩, ⟨-2000, 2048⟩, ⟨0, 2048⟩⟩
        ⟨⟨737280, 8192⟩, ⟨-737280, 8192⟩, ⟨983025, 8192⟩⟩))) := by decide

/-- V-DEC-4. -/
theorem test_frame_mag :
    answer (onInput (.frame (frame20 [0x55, 0x71, 0x3A, 0x00, 0x10, 0x00, 0xF0, 0xFF, 0x00, 0x80, 0xAA,
      0xAA]))) = some (.ok (.sample (.magneticField 16 (-16) (-32768)))) := by decide

/-- V-DEC-5. -/
theorem test_frame_quat :
    answer (onInput (.frame (frame20 [0x55, 0x71, 0x51, 0x00, 0x00, 0x40, 0xFF, 0x7F, 0x00, 0x80])))
      = some (.ok (.sample (.quaternion ⟨16384, 32768⟩ ⟨32767, 32768⟩ ⟨-32768, 32768⟩ ⟨0, 32768⟩))) := by
  decide

/-- V-DEC-8: the word is signed. -/
theorem test_frame_temp :
    answer (onInput (.frame (frame20 [0x55, 0x71, 0x40, 0x00, 0x00, 0x80])))
      = some (.ok (.sample (.temperature ⟨-32768, 100⟩))) := by decide

/-- V-DEC-10: the word is unsigned. -/
theorem test_frame_batt :
    answer (onInput (.frame (frame20 [0x55, 0x71, 0x64, 0x00, 0xFF, 0xFF])))
      = some (.ok (.sample (.batteryVoltage ⟨65535, 100⟩))) := by decide

/-- V-DEC-11. -/
theorem test_frame_version :
    answer (onInput (.frame (frame20 [0x55, 0x71, 0x2E, 0x00, 0x34, 0x12])))
      = some (.ok (.sample (.firmwareVersion 4660))) := by decide

/-- V-DEC-14: no field is range-checked. -/
theorem test_frame_datetime :
    answer (onInput (.frame (frame20 [0x55, 0x71, 0x30, 0x00, 0x00, 0x0D, 0x00, 0x19, 0x3C, 0x3C, 0xD2,
      0x04]))) = some (.ok (.sample (.dateTime ⟨2000, 13, 0, 25, 60, 60, 1234⟩))) := by decide

/-- V-DEC-17. -/
theorem test_frame_burst :
    answer (onInput (.frame #v[0x55, 0x71, 0x00, 0x00, 0xFF, 0xFF, 0x00, 0x80, 0x01, 0x02, 0x03, 0x04, 0x05,
      0x06, 0x07, 0x08, 0x09, 0x0A, 0x0B, 0x0C])) = some (.ok (.sample (.registerBurst 0x00
        #v[0xFFFF, 0x8000, 0x0201, 0x0403, 0x0605, 0x0807, 0x0A09, 0x0C0B]))) := by decide

/-! ### Commands -/

/-- A request word is answered with a command. -/
def builds (w : ReqWord) (C : CommandBytes) : Bool :=
  decide (answer (onWord w) = some (.ok (.command C)))

/-- V-ENC-1 to V-ENC-5. -/
theorem test_enc_settings :
    builds 0x10000000 #v[0xFF, 0xAA, 0x00, 0x00, 0x00] = true
      ∧ builds 0x11000000 #v[0xFF, 0xAA, 0x00, 0x01, 0x00] = true
      ∧ builds 0x12000000 #v[0xFF, 0xAA, 0x01, 0x01, 0x00] = true
      ∧ builds 0x13000000 #v[0xFF, 0xAA, 0x01, 0x07, 0x00] = true
      ∧ builds 0x14000000 #v[0xFF, 0xAA, 0x01, 0x00, 0x00] = true := by decide

/-- V-ENC-6, V-ENC-8, V-ENC-11. -/
theorem test_enc_set_rate :
    builds 0x15000009 #v[0xFF, 0xAA, 0x03, 0x09, 0x00] = true
      ∧ answer (onWord 0x1500000A) = some (.error (.badArgument 0x0A))
      ∧ answer (onWord 0x1500010A) = some (.error (.illegalRequest 0x1500010A)) := by decide

/-- V-ENC-12, V-ENC-15, V-ENC-17, V-ENC-18, V-ENC-19. -/
theorem test_enc_read_time :
    builds 0x16000064 #v[0xFF, 0xAA, 0x27, 0x64, 0x00] = true
      ∧ builds 0x17000B18 #v[0xFF, 0xAA, 0x30, 0x18, 0x0B] = true
      ∧ builds 0x1800160B #v[0xFF, 0xAA, 0x31, 0x0B, 0x16] = true
      ∧ builds 0x19003B2D #v[0xFF, 0xAA, 0x32, 0x2D, 0x3B] = true
      ∧ builds 0x1A0003E7 #v[0xFF, 0xAA, 0x33, 0xE7, 0x03] = true := by decide

/-- V-ENC-23, V-ENC-24, V-ENC-26. -/
theorem test_enc_fw_update :
    refusalOf (onWord 0x1B000000) = some .fwUpdateUnbound
      ∧ answer (onWord 0x1B000000 { State.reset with cfg := bound })
        = some (.ok (.command #v[0xFF, 0xAA, 0x5A, 0x00, 0x00]))
      ∧ answer (onWord 0x1B000001) = some (.error (.illegalRequest 0x1B000001)) := by decide

/-- A builder call is answered with a command. -/
def emits (b : Builder) (C : CommandBytes) (cfg : WireConfig := dflt) : Bool :=
  decide (answer (onInput (.builder b) { State.reset with cfg := cfg }) = some (.ok (.command C)))

/-- R69's map, with R7's defaults. -/
theorem test_cmd_settings :
    emits .save #v[0xFF, 0xAA, 0x00, 0x00, 0x00] = true
      ∧ emits .restore #v[0xFF, 0xAA, 0x00, 0x01, 0x00] = true
      ∧ emits .calAcc #v[0xFF, 0xAA, 0x01, 0x01, 0x00] = true
      ∧ emits .calMag #v[0xFF, 0xAA, 0x01, 0x07, 0x00] = true
      ∧ emits .calQuit #v[0xFF, 0xAA, 0x01, 0x00, 0x00] = true
      ∧ emits (.setRate 0x0B) #v[0xFF, 0xAA, 0x03, 0x0B, 0x00] = true
      ∧ emits (.readReg 0xFF) #v[0xFF, 0xAA, 0x27, 0xFF, 0x00] = true := by decide

theorem test_cmd_time :
    emits (.timeYm 0 13) #v[0xFF, 0xAA, 0x30, 0x00, 0x0D] = true
      ∧ emits (.timeDh 11 22) #v[0xFF, 0xAA, 0x31, 0x0B, 0x16] = true
      ∧ emits (.timeMs 45 59) #v[0xFF, 0xAA, 0x32, 0x2D, 0x3B] = true
      ∧ emits (.timeMsec 1000) #v[0xFF, 0xAA, 0x33, 0xE8, 0x03] = true
      ∧ emits .fwUpdate #v[0xFF, 0xAA, 0x5A, 0x00, 0x00] bound = true := by decide

/-- R165 on the CMD row: a code outside the table is a bad argument. -/
theorem test_cmd_set_rate_bad :
    answer (onInput (.builder (.setRate 0x0A))) = some (.error (.badArgument 0x0A)) := by decide

/-! ### Lookups -/

/-- A request word is answered with a value. -/
def gives (w : ReqWord) (v : Nat) : Bool := decide (answer (onWord w) = some (.ok (.value v)))

/-- V-LUT-1 to V-LUT-6, V-LUT-8. -/
theorem test_lut_batt :
    gives 0x20000190 100 = true ∧ gives 0x2000014A 0 = true ∧ gives 0x2000016D 50 = true
      ∧ gives 0x2000016E 51 = true ∧ gives 0x2000014B 1 = true ∧ gives 0x2000018F 98 = true
      ∧ gives 0x2000FFFF 100 = true := by decide

/-- V-LUT-10 to V-LUT-12. -/
theorem test_lut_rate_hz :
    gives 0x21000001 200 = true ∧ gives 0x21000009 100000 = true ∧ gives 0x2100000B 200000 = true
      ∧ answer (onWord 0x2100000A) = some (.error (.badArgument 0x0A)) := by decide

/-- V-LUT-13 to V-LUT-19. -/
theorem test_lut_hz_rate :
    gives 0x220186A0 0x09 = true ∧ gives 0x220249F0 0x09 = true ∧ gives 0x220249F1 0x0B = true
      ∧ gives 0x2200015E 0x01 = true ∧ gives 0x220124F8 0x08 = true ∧ gives 0x22000000 0x01 = true
      ∧ gives 0x22FFFFFF 0x0B = true := by decide

/-! ### Errors, floats, rendering and assembly -/

/-- V-ILL-1 and V-SYNC-20, with the state unchanged (R202). -/
theorem test_illegal_request :
    answer (onWord 0x00000000 battery19) = some (.error (.illegalRequest 0x00000000))
      ∧ answer (onWord 0x01000155 battery19) = some (.error (.illegalRequest 0x01000155))
      ∧ place (onWord 0x01000155 battery19) = some (.collecting, 19) := by decide

/-- V-DEC-6 to V-DEC-8 and V-DEC-10. -/
theorem test_binary32_hundredths :
    Fixed.binary32 ⟨2534, 100⟩ = 0x41CAB852 ∧ Fixed.binary32 ⟨-500, 100⟩ = 0xC0A00000
      ∧ Fixed.binary32 ⟨-32768, 100⟩ = 0xC3A3D70A ∧ Fixed.binary32 ⟨65535, 100⟩ = 0x4423D666 := by decide

/-- The exact values under the table of 95_test_vectors.md section 4. -/
theorem test_binary32_exact :
    (accel 0x7FFF).binary32 = 0x417FFE00 ∧ (gyro 0x7FFF).binary32 = 0x44F9FE0C
      ∧ (angle 0x7FFF).binary32 = 0x4333FE98 ∧ (quatPart 0x7FFF).binary32 = 0x3F7FFE00 := by decide

/-- V-DEC-13, V-DEC-14 and R138's own examples. -/
theorem test_render :
    render ⟨2024, 11, 11, 22, 45, 59, 999⟩ = "2024-11-11 22:45:59.999"
      ∧ render ⟨2000, 13, 0, 25, 60, 60, 1234⟩ = "2000-13-00 25:60:60.1234"
      ∧ render ⟨2018, 1, 7, 0, 0, 0, 7⟩ = "2018-01-07 00:00:00.007" := by decide

/-- 95_test_vectors.md section 2, a comment, and a line that is no request. -/
theorem test_assemble_requests :
    assembleLine dflt "  FEED 0x55 ; a heading" = some [.request 0x01000055 0]
      ∧ assembleLine dflt "ENC_TIME_YM 24, 11" = some [.request 0x17000B18 0]
      ∧ assembleLine dflt ".word 0x30000000" = some [.request 0x30000000 0]
      ∧ assembleLine dflt "RESET" = some [.reset]
      ∧ assembleLine dflt "FEED 256" = none ∧ assembleLine dflt "HALT" = none := by decide

/-- R73's expansions, with the words of P5. -/
theorem test_assemble_pseudo :
    assembleLine dflt "SET_TIME 24, 11, 11, 22, 45, 59, 999"
        = some [.request 0x17000B18 0, .request 0x1800160B 0,
            .request 0x19003B2D 0, .request 0x1A0003E7 0]
      ∧ assembleLine dflt "ENC_SET_RATE_HZ 100000"
        = some [.request 0x220186A0 0, .request 0x15000009 0]
      ∧ assembleLine dflt "FEEDS 55 61"
        = some [.request 0x01000055 0, .request 0x01000061 0] := by decide

/-! ### Witnesses: states and operands that meet the hypotheses of the obligations

`test_hyps_X` is about `Obligations.X`; where a statement has several clauses, each clause has its own
conjunct. -/

theorem test_hyps_RequestsDecodeToThemselves :
    (Instr.feed 0xFF).format = .hreq ∧ (Instr.decode (frame20 [0x55])).format = .hreq
      ∧ (Instr.lutHzRate 0xFFFFFF).format = .hreq := by decide

theorem test_hyps_FramesDecodeToThemselves :
    checking.wf = true
      ∧ ((Instr.frameStreamed ⟨0xFFFF, 0, 0, 0, 0, 0, 0, 0, 0x8000⟩).wf checking = true
        ∧ (Instr.frameStreamed ⟨0xFFFF, 0, 0, 0, 0, 0, 0, 0, 0x8000⟩).format = .frameS)
      ∧ ((Instr.frameBurst 0xFF ⟨0, 0xFFFF, 0, 0, 0, 0, 0, 0, 0⟩).wf checking = true
        ∧ (Instr.frameBurst 0xFF ⟨0, 0xFFFF, 0, 0, 0, 0, 0, 0, 0⟩).format = .frameR) := by decide

theorem test_hyps_CommandsDecodeToThemselves :
    bound.commandsApart = true ∧ Instr.cmdFwUpdate.wf bound = true ∧ Instr.cmdFwUpdate.format = .cmd
      ∧ dflt.commandsApart = true ∧ (Instr.cmdTimeMsec 0xFFFF).wf dflt = true := by decide

theorem test_hyps_AcceptedRequestHasOneSpelling :
    decodeRequest 0x01000055 7 = .accepted (.feed 0x55)
      ∧ decodeRequest 0x02000000 0x6155 = .accepted (.decode (frame20 [0x55, 0x61])) := by decide

theorem test_hyps_AcceptedFrameHasOneSpelling :
    decodeFrame dflt (frame20 [0x55, 0x71, 0x2E, 0xFF, 0x34, 0x12])
      = .accepted (.frameVersion ⟨0xFF, 0x1234, 0, 0, 0, 0, 0, 0, 0⟩) := by decide

/-- Both ends of the offsets, and both signs of a word. -/
theorem test_hyps_HalfWordsAreLittleEndian :
    0 + 1 < 20 ∧ 18 + 1 < 20 ∧ u16 ((frame20 [0x00, 0x80]).le16 0) = 32768
      ∧ u16 ((frame20 [0xFF, 0x7F]).le16 0) = 32767 := by decide

/-- A state in which the host has issued one request word and nothing is left after it. -/
def issuing (w : ReqWord) : State := { State.reset with pending := [.request w 0] }

/-- A request word, a frame and a builder call. -/
theorem test_hyps_StepRunsTheDecodedInstruction :
    (issuing 0x20000190).cfg.wf = true
      ∧ ((issuing 0x20000190).pending = .request 0x20000190 0 :: []
        ∧ decodeRequest 0x20000190 0 = .accepted (.lutBatt 400))
      ∧ (({ State.reset with pending := [.frame (frame20 [0x55, 0x71, 0x2E])] } : State).pending
          = .frame (frame20 [0x55, 0x71, 0x2E]) :: []
        ∧ decodeFrame State.reset.cfg (frame20 [0x55, 0x71, 0x2E])
          = .accepted (.frameVersion ⟨0, 0, 0, 0, 0, 0, 0, 0, 0⟩))
      ∧ ({ State.reset with pending := [.builder .save] } : State).pending = .builder .save :: [] := by
  decide

/-- An unassigned op, and an assigned one with a reserved bit. -/
theorem test_hyps_IllegalRequestIsAnsweredAndChangesNothing :
    dflt.wf = true
      ∧ (issuing 0x1C000000).pending = .request 0x1C000000 0 :: []
      ∧ (issuing 0x15000100).pending = .request 0x15000100 0 :: []
      ∧ (∀ e ∈ assignedOps, reqOp 0x1C000000 = e.1 → 0x1C000000 &&& e.2 ≠ 0#32)
      ∧ (∀ e ∈ assignedOps, reqOp 0x15000100 = e.1 → 0x15000100 &&& e.2 ≠ 0#32) := by
  refine ⟨by decide, rfl, rfl, ?_, ?_⟩ <;> (unfold assignedOps; simp [reqOp])

theorem test_hyps_ResetInputRestartsTheSynchronizer :
    ({ battery19 with pending := [.reset] } : State).cfg.wf = true
      ∧ ({ battery19 with pending := [.reset] } : State).pending = .reset :: [] := by decide

/-- A heading and another byte after the reset. -/
theorem test_hyps_ResetDropsThePartialFrame :
    ({ battery19 with pending := [.reset, feedInput 0x55] } : State).cfg.wf = true
      ∧ ({ battery19 with pending := [.reset, feedInput 0x55] } : State).pending
        = .reset :: feedInput 0x55 :: []
      ∧ ({ battery19 with pending := [.reset, feedInput 0x61] } : State).pending
        = .reset :: feedInput 0x61 :: [] := by decide

theorem test_hyps_IdleStepHoldsTheState : battery19.cfg.wf = true ∧ battery19.pending = [] := by decide

theorem test_hyps_IllFormedConfigIsRefused :
    ({ State.reset with cfg := { dflt with regMag := 0x51 } } : State).cfg.wf = false := by decide

/-- The four phases with the bytes their clauses ask for. -/
theorem test_hyps_feed_phases :
    State.reset.phase = .seekHeading ∧ (held .awaitFlag 1 [0x55]).phase = .awaitFlag
      ∧ (held .awaitRegister 2 [0x55, 0x71]).phase = .awaitRegister := by decide

/-- SeekHeading's two clauses and AwaitFlag's four exclude each other. -/
theorem test_hyps_feed_bytes :
    (0x54#8 ≠ 0x55#8 ∧ 0x56#8 ≠ 0x55#8)
      ∧ ∀ b ∈ [0x54#8, 0x56#8, 0x60#8, 0x62#8, 0x70#8, 0x72#8, 0x00#8, 0xFF#8],
        b ≠ 0x61#8 ∧ b ≠ 0x71#8 ∧ b ≠ 0x55#8 := by decide

/-- The first and the last cursor of R104. -/
theorem test_hyps_CollectingStoresEveryByte :
    (held .collecting 2 [0x55, 0x61]).phase = .collecting
      ∧ (held .collecting 2 [0x55, 0x61]).cursor.val + 1 < 20
      ∧ (held .collecting 18 [0x55, 0x61]).cursor.val + 1 < 20 := by decide

/-- A completing FEED that decodes, and one that does not. -/
theorem test_hyps_LastByteEmitsTheDecodedFrame :
    (battery19.phase = .collecting ∧ battery19.cursor.val = 19
        ∧ (∀ o : Fin 20, o.val < 19 →
          battery19.buf.read o.val = some (frame20 [0x55, 0x71, 0x64, 0x00, 0x90, 0x01])[o.val])
        ∧ (frame20 [0x55, 0x71, 0x64, 0x00, 0x90, 0x01])[19] = 0x00
        ∧ decodeSample battery19.cfg (frame20 [0x55, 0x71, 0x64, 0x00, 0x90, 0x01])
          = .accepted (.batteryVoltage ⟨400, 100⟩))
      ∧ battery19Checked.phase = .collecting ∧ battery19Checked.cursor.val = 19
      ∧ (∀ o : Fin 20, o.val < 19 →
          battery19Checked.buf.read o.val = some (frame20 [0x55, 0x71, 0x64, 0x01, 0x90, 0x01])[o.val])
      ∧ (frame20 [0x55, 0x71, 0x64, 0x01, 0x90, 0x01])[19] = 0x00
      ∧ decodeSample battery19Checked.cfg (frame20 [0x55, 0x71, 0x64, 0x01, 0x90, 0x01])
        = .rejected .badRegHi := by decide

/-- A FEED that gives a next state, with an offset outside the stored ones and one among them. -/
theorem test_hyps_FeedStoresOnlyWhereTheRulesSay :
    (∃ t, exec (.feed 0x55) (held .awaitFlag 1 [0x55]) = .next t)
      ∧ 2 ∉ feedStores (held .awaitFlag 1 [0x55]) 0x55
      ∧ 0 ∈ feedStores (held .awaitFlag 1 [0x55]) 0x55 :=
  ⟨⟨_, rfl⟩, by decide, by decide⟩

/-- The invariant holds of states in every phase. -/
theorem test_inv_awaitFlag : (held .awaitFlag 1 [0x55]).Inv :=
  ⟨by decide, ⟨rfl, by decide⟩, by unfold State.Known; decide⟩

theorem test_inv_awaitRegister : (held .awaitRegister 2 [0x55, 0x71]).Inv :=
  ⟨by decide, ⟨rfl, by decide, by decide⟩, by unfold State.Known; decide⟩

theorem test_inv_collecting2 : (held .collecting 2 [0x55, 0x61]).Inv :=
  ⟨by decide, ⟨by decide, by decide, .inl (by decide), fun _ => by decide⟩,
    by unfold State.Known; decide⟩

theorem test_inv_battery19 : battery19.Inv :=
  ⟨by decide, ⟨by decide, by decide, .inr (by decide), fun h => absurd h (by decide)⟩,
    by unfold State.Known; decide⟩

theorem test_inv_battery19Checked : battery19Checked.Inv :=
  ⟨by decide, ⟨by decide, by decide, .inr (by decide), fun h => absurd h (by decide)⟩,
    by unfold State.Known; decide⟩

theorem test_hyps_FeedCompletesOnEveryByte : State.reset.Inv ∧ battery19.Inv :=
  ⟨⟨by decide, rfl, fun o h => absurd h (Nat.not_lt_zero o)⟩, test_inv_battery19⟩

theorem test_hyps_PayloadBytesAreNotInterpreted :
    ((held .awaitRegister 2 [0x55, 0x71]).Inv ∧ (held .awaitRegister 2 [0x55, 0x71]).phase = .awaitRegister)
      ∧ battery19.Inv ∧ battery19.phase = .collecting :=
  ⟨⟨test_inv_awaitRegister, rfl⟩, test_inv_battery19, rfl⟩

/-- The frame that decodes and the one that does not. -/
theorem test_hyps_CompletedFrameFailsOnlyOnByteThree :
    (battery19.Inv ∧ battery19.phase = .collecting ∧ battery19.cursor.val = 19
        ∧ battery19.cfg.checkRegHi = false)
      ∧ battery19Checked.Inv ∧ battery19Checked.phase = .collecting ∧ battery19Checked.cursor.val = 19
      ∧ battery19Checked.cfg.checkRegHi = true
      ∧ (frame20 [0x55, 0x71, 0x64, 0x01, 0x90, 0x01])[3] ≠ 0x00 :=
  ⟨⟨test_inv_battery19, rfl, rfl, rfl⟩, test_inv_battery19Checked, rfl, rfl, rfl, by decide⟩

theorem test_hyps_EveryStepKeepsTheInvariant :
    battery19.Inv ∧ step battery19 = .next { battery19 with resp := none } :=
  ⟨test_inv_battery19, by
    unfold step
    rw [State.fetch_nil (by decide) rfl]⟩

theorem test_hyps_NoStepReadsAnUnknownByte : battery19.Inv := test_inv_battery19

/-- S8's stream with the payload of V-SYNC-7, and one input after it. -/
def streaming : State :=
  { State.reset with pending := feeds ([0x55, 0x61] ++ (#v[0x11, 0x22, 0x33, 0x44, 0x55, 0x66, 0x77, 0x88,
    0x99, 0xAA, 0xBB, 0xCC, 0xDD, 0xEE, 0xFF, 0x00, 0x01, 0x02] : Vector Byte 18).toList) ++ [.reset] }

theorem test_hyps_TwentyFedBytesYieldTheirFrame :
    streaming.cfg.wf = true ∧ streaming.phase = .seekHeading
      ∧ streaming.pending = feeds ([0x55#8, 0x61#8] ++ (#v[0x11, 0x22, 0x33, 0x44, 0x55, 0x66, 0x77, 0x88,
        0x99, 0xAA, 0xBB, 0xCC, 0xDD, 0xEE, 0xFF, 0x00, 0x01, 0x02] : Vector Byte 18).toList) ++ [.reset] :=
  ⟨by decide, rfl, rfl⟩

/-- FWUPD_CODE bound with a request to enter the mode among the inputs; and unbound with none. -/
theorem test_hyps_OtherRequestsDoNotDisturbTheStream :
    (bound.wf = true ∧ ({ battery19 with cfg := bound } : State).Inv
        ∧ ([rawWord 0x1B000000, [feedInput 0x55]].flatten.all Input.isRequest) = true
        ∧ bound.fwupdCode ≠ none)
      ∧ battery19.cfg.wf = true ∧ battery19.Inv
      ∧ ([rawWord 0x20000190, [feedInput 0x55]].flatten.all Input.isRequest) = true
      ∧ ∀ w d, .request w d ∈ [rawWord 0x20000190, [feedInput 0x55]].flatten →
        decodeRequest w d ≠ .accepted .encFwUpdate := by
  refine ⟨⟨by decide, test_inv_battery19, by decide, by decide⟩, by decide, test_inv_battery19,
    by decide, fun w d h => ?_⟩
  simp only [rawWord, feedInput, List.flatten_cons, List.flatten_nil, List.append_nil,
    List.cons_append, List.nil_append, List.mem_cons, List.not_mem_nil, or_false, Input.request.injEq] at h
  rcases h with ⟨rfl, rfl⟩ | ⟨rfl, rfl⟩ <;> decide

theorem test_hyps_FedBytesBoundTheFrames :
    ({ battery19 with pending := feeds [0x00, 0x55] } : State).cfg.wf = true
      ∧ ({ battery19 with pending := feeds [0x00, 0x55] } : State).Inv
      ∧ ({ battery19 with pending := feeds [0x00, 0x55] } : State).pending = feeds [0x00, 0x55] :=
  ⟨by decide, test_inv_battery19, rfl⟩

theorem test_hyps_DecodeStreamedGivesScaledTriples :
    (frame20 [0x55, 0x61])[0] = 0x55 ∧ (frame20 [0x55, 0x61])[1] = 0x61 := by decide

/-- One frame for each of the seven clauses, with CHECK_REG_HI off and on. -/
theorem test_hyps_DecodeRegisterEchoGivesItsSample :
    dflt.wf = true ∧ checking.wf = true ∧ dflt.checkRegHi = false
      ∧ (frame20 [0x55, 0x71, 0x3A])[0] = 0x55 ∧ (frame20 [0x55, 0x71, 0x3A])[1] = 0x71
      ∧ (frame20 [0x55, 0x71, 0x3A])[3] = 0x00
      ∧ (frame20 [0x55, 0x71, 0x3A])[2] = dflt.regMag ∧ (frame20 [0x55, 0x71, 0x51])[2] = dflt.regQuat
      ∧ (frame20 [0x55, 0x71, 0x40])[2] = dflt.regTemp ∧ (frame20 [0x55, 0x71, 0x64])[2] = dflt.regBatt
      ∧ (frame20 [0x55, 0x71, 0x2E])[2] = dflt.regVersion
      ∧ (frame20 [0x55, 0x71, 0x30])[2] = dflt.regDateTime
      ∧ (frame20 [0x55, 0x71, 0xFF])[2] ∉ dflt.regNumbers
      ∧ (frame20 [0x55, 0x71, 0x00])[2] ∉ dflt.regNumbers := by decide

/-- A bad heading, a bad flag, and byte 3 under CHECK_REG_HI. -/
theorem test_hyps_DecodeRefusesWhatIsNoFrame :
    (frame20 [0x56, 0x61])[0] ≠ 0x55
      ∧ ((frame20 [0x55, 0x62])[1] ≠ 0x61 ∧ (frame20 [0x55, 0x62])[1] ≠ 0x71)
      ∧ (checking.checkRegHi = true ∧ (frame20 [0x55, 0x71, 0x64, 0x01])[1] = 0x71
        ∧ (frame20 [0x55, 0x71, 0x64, 0x01])[3] ≠ 0x00) := by decide

/-- Two temperature frames that differ in V1 and, with CHECK_REG_HI off, in byte 3. -/
theorem test_hyps_UnreadBytesDoNotMatter :
    classify dflt (frame20 [0x55, 0x71, 0x40, 0x00, 0xE6, 0x09]) = .accepted .temp
      ∧ (frame20 [0x55, 0x71, 0x40, 0x00, 0xE6, 0x09])[2]
        = (frame20 [0x55, 0x71, 0x40, 0x01, 0xE6, 0x09, 0xAA])[2]
      ∧ dflt.checkRegHi = false
      ∧ ∀ o : Fin 20, o.val ∈ readOffsets .temp →
        (frame20 [0x55, 0x71, 0x40, 0x00, 0xE6, 0x09])[o.val]
          = (frame20 [0x55, 0x71, 0x40, 0x01, 0xE6, 0x09, 0xAA])[o.val] := by decide

theorem test_hyps_StreamedFrameIsRecoveredFromItsFields :
    (frame20 [0x55, 0x61, 0xFF, 0x7F])[0] = 0x55 ∧ (frame20 [0x55, 0x61, 0xFF, 0x7F])[1] = 0x61
      ∧ decodeSample dflt (frame20 [0x55, 0x61, 0xFF, 0x7F])
        = .accepted (.streamed ⟨⟨32767, 2048⟩, ⟨0, 2048⟩, ⟨0, 2048⟩⟩ ⟨⟨0, 2048⟩, ⟨0, 2048⟩, ⟨0, 2048⟩⟩
          ⟨⟨0, 8192⟩, ⟨0, 8192⟩, ⟨0, 8192⟩⟩) := by decide

/-- The check on byte 3, off with any byte and on with 0x00 and with another; for the echo and the
date/time rows. -/
theorem test_hyps_FrameRowsGiveTheirSamples :
    dflt.checkRegHi = false ∧ checking.checkRegHi = true
      ∧ (⟨0x00, 1, 2, 3, 4, 5, 6, 7, 8⟩ : EchoFields).regHi = 0x00
      ∧ (⟨0x00, 1, 2, 3, 4, 5, 6, 7, 8, 9, 10, 11⟩ : DateTimeFields).regHi = 0x00
      ∧ (⟨0x01, 1, 2, 3, 4, 5, 6, 7, 8⟩ : EchoFields).regHi ≠ 0x00
      ∧ (⟨0xFF, 1, 2, 3, 4, 5, 6, 7, 8, 9, 10, 11⟩ : DateTimeFields).regHi ≠ 0x00 := by decide

/-- A streamed frame, a burst of no named register, and a frame that the check refuses. -/
theorem test_hyps_FrameRowsAgreeWithDecode :
    checking.wf = true
      ∧ (encode checking (.frameStreamed ⟨0, 0, 0, 0, 0, 0, 0, 0, 0⟩)
          = some (.frame (frame20 [0x55, 0x61]))
        ∧ (Instr.frameStreamed ⟨0, 0, 0, 0, 0, 0, 0, 0, 0⟩).format = .frameS)
      ∧ 0x03 ∉ checking.regNumbers
      ∧ encode checking (.frameBurst 0x03 ⟨0x01, 9, 0, 0, 0, 0, 0, 0, 0⟩)
        = some (.frame (frame20 [0x55, 0x71, 0x03, 0x01, 0x09]))
      ∧ (Instr.frameBurst 0x03 ⟨0x01, 9, 0, 0, 0, 0, 0, 0, 0⟩).format = .frameR := by decide

/-- A code in the table, and the one between two of its codes. -/
theorem test_hyps_SetRateAcceptsOnlyTableCodes :
    (0x0B#8, 200000) ∈ State.reset.cfg.rateTable
      ∧ ∀ f, (0x0A#8, f) ∉ State.reset.cfg.rateTable := by
  refine ⟨by decide, fun f h => ?_⟩
  exact absurd (List.mem_map_of_mem (f := Prod.fst) h)
    (show 0x0A#8 ∉ State.reset.cfg.rateTable.map Prod.fst by decide)

theorem test_hyps_FwUpdateNeedsItsCode :
    ({ State.reset with cfg := bound } : State).cfg.fwupdCode = some 0x5A
      ∧ State.reset.cfg.fwupdCode = none := by decide

theorem test_hyps_EveryCommandHasTheFixedHeader :
    ∃ t C, exec .encSave State.reset = .next t ∧ t.resp = some (.ok (.command C)) := ⟨_, _, rfl, rfl⟩

/-- Both anchors of the battery table and the values beside them. -/
theorem test_hyps_BatteryLookupMeetsItsAnchors :
    State.reset.cfg.wf = true ∧ 400 ≤ (400#16).toNat ∧ (330#16).toNat ≤ 330
      ∧ (331#16).toNat ≤ (399#16).toNat
      ∧ (∃ u, exec (.lutBatt 399) State.reset = .next { State.reset with resp := some (.ok (.value u)) }) :=
  ⟨by decide, by decide, by decide, by decide, _, rfl⟩

theorem test_hyps_DefaultBatteryLookupInterpolates : State.reset.cfg.battPct = defaultBattPct := rfl

theorem test_hyps_RateLookupFollowsTheTable :
    State.reset.cfg.wf = true ∧ (0x01#8, 200) ∈ State.reset.cfg.rateTable
      ∧ ∀ f, (0x00#8, f) ∉ State.reset.cfg.rateTable := by
  refine ⟨by decide, by decide, fun f h => ?_⟩
  exact absurd (List.mem_map_of_mem (f := Prod.fst) h)
    (show 0x00#8 ∉ State.reset.cfg.rateTable.map Prod.fst by decide)

theorem test_hyps_FrequencyLookupIsNearest : State.reset.cfg.wf = true := by decide

theorem test_hyps_RateLookupsAreInverse :
    State.reset.cfg.wf = true ∧ (0x0B#8, 200000) ∈ State.reset.cfg.rateTable := by decide

theorem test_hyps_PseudoInstructionsExpandInOrder :
    dflt.wf = true
      ∧ ({ State.reset with pending := setTime dflt 24 11 11 22 45 59 999 } : State).pending
        = setTime ({ State.reset with pending := setTime dflt 24 11 11 22 45 59 999 } : State).cfg
          24 11 11 22 45 59 999 ++ []
      ∧ ({ State.reset with pending := setRateHz dflt 150001 } : State).pending
        = setRateHz ({ State.reset with pending := setRateHz dflt 150001 } : State).cfg 150001 ++ [] := by
  decide

theorem test_hyps_OnlyFeedChangesState :
    (∀ b, Instr.encSave ≠ .feed b) ∧ ∃ t, exec .encSave State.reset = .next t :=
  ⟨fun _ => nofun, _, rfl⟩

theorem test_hyps_EveryInstructionAnswersOnce : ∃ t, exec (.feed 0x55) State.reset = .next t := ⟨_, rfl⟩

theorem test_hyps_NoStepChangesTheConfig : step State.reset = .next { State.reset with resp := none } := by
  unfold step
  rw [State.fetch_nil (by decide) rfl]

/-- An error of a pure request, an illegal word, and a completing FEED whose frame fails decode. -/
theorem test_hyps_ErrorsArePrecise :
    answer (onWord 0x1500000A battery19) = some (.error (.badArgument 0x0A))
      ∧ answer (onWord 0x1C000000 battery19) = some (.error (.illegalRequest 0x1C000000))
      ∧ answer (onWord 0x01000000 battery19Checked)
        = some (.error (.unrecognizedFrame (frame20 [0x55, 0x71, 0x64, 0x01, 0x90, 0x01])))
      ∧ decodeRequest 0x01000000 0 = .accepted (.feed 0x00)
      ∧ battery19Checked.phase = .collecting ∧ battery19Checked.cursor.val = 19 := by decide

theorem test_hyps_ErrorsComeFromTheirInstructions :
    ∃ t, exec (.lutRateHz 0x00) State.reset = .next t ∧ t.resp = some (.error (.badArgument 0x00)) :=
  ⟨_, rfl, rfl⟩

theorem test_hyps_OnlyUnboundFwUpdateIsRefused :
    State.reset.cfg.wf = true ∧ exec .encFwUpdate State.reset = .refused .fwUpdateUnbound :=
  ⟨by decide, rfl⟩

/-- An exact half: 5 / 2 rounds to the even 2, and 7 / 2 to the even 4. -/
theorem test_hyps_RoundingIsToNearestEven :
    0 < 2 ∧ 2 * ((5 : Int) - roundHalfEven 5 2 * 2).natAbs = 2 ∧ roundHalfEven 5 2 = 2
      ∧ roundHalfEven 7 2 = 4 := by decide

/-- The widest number of three digits. -/
theorem test_hyps_DecimalFieldsPadAndKeepTheirValue : 0 < 3 ∧ 999 < 10 ^ 3 := by decide

end Sys2Proof.Tests
end

