-- ==== Sys2Proof/Proofs/PureInstructions.lean ====
section
/-! PROOF. What an instruction other than FEED can do, said once: it answers from the configuration and
its operands alone (10_state.md R25, 20_memory.md R45). -/

namespace Sys2Proof.Machine

open Sys2Proof

/-- Under one configuration a meaning ends the same way in every state: with one response, written over
an otherwise unchanged state, or with one refusal. -/
def AnswersByConfig (m : State → Result) (cfg : WireConfig) : Prop :=
  (∃ r, ∀ s : State, s.cfg = cfg → m s = .next (s.respond r))
    ∨ ∃ q, ∀ s : State, s.cfg = cfg → m s = .refused q

theorem AnswersByConfig.ok (p : WireConfig → Payload) (cfg : WireConfig) :
    AnswersByConfig (fun s => s.ok (p s.cfg)) cfg :=
  .inl ⟨.ok (p cfg), by rintro s rfl; rfl⟩

theorem AnswersByConfig.raise (e : WireConfig → BlockError) (cfg : WireConfig) :
    AnswersByConfig (fun s => s.raise (e s.cfg)) cfg :=
  .inl ⟨.error (e cfg), by rintro s rfl; rfl⟩

/-- Two meanings that agree under a configuration answer alike under it. -/
theorem AnswersByConfig.congr {m k : State → Result} {cfg : WireConfig} (hk : AnswersByConfig k cfg)
    (h : ∀ s : State, s.cfg = cfg → m s = k s) : AnswersByConfig m cfg :=
  hk.imp (fun ⟨r, hr⟩ => ⟨r, fun s hs => (h s hs).trans (hr s hs)⟩)
    fun ⟨q, hq⟩ => ⟨q, fun s hs => (h s hs).trans (hq s hs)⟩

/-- A choice that looks at the configuration alone. -/
theorem AnswersByConfig.ite {m n : State → Result} {cfg : WireConfig} (c : WireConfig → Bool)
    (hm : AnswersByConfig m cfg) (hn : AnswersByConfig n cfg) :
    AnswersByConfig (fun s => if c s.cfg = true then m s else n s) cfg := by
  by_cases hc : c cfg = true
  · exact hm.congr fun s hs => by rw [hs, if_pos hc]
  · exact hn.congr fun s hs => by rw [hs, if_neg hc]

theorem AnswersByConfig.build (code lo hi : WireConfig → Byte) (cfg : WireConfig) :
    AnswersByConfig (fun s => s.build (code s.cfg) (lo s.cfg) (hi s.cfg)) cfg :=
  .ok (fun c => .command (commandBytes (code c) (lo c) (hi c))) cfg

theorem AnswersByConfig.echo (regHi : Byte) (F : WireConfig → Frame) (S : WireConfig → Sample)
    (cfg : WireConfig) : AnswersByConfig (fun s => s.echo regHi (F s.cfg) (S s.cfg)) cfg :=
  .ite (regHiAccepted · regHi) (.ok (fun c => .sample (S c)) cfg)
    (.raise (fun c => .unrecognizedFrame (F c)) cfg)

theorem AnswersByConfig.buildRate (rate : Byte) (cfg : WireConfig) :
    AnswersByConfig (fun s => s.buildRate rate) cfg :=
  .ite (inRateTable · rate) (.build (fun _ => cmdRate) (fun _ => rate) (fun _ => 0#8) cfg)
    (.raise (fun _ => .badArgument rate) cfg)

theorem AnswersByConfig.buildFwUpdate (cfg : WireConfig) :
    AnswersByConfig State.buildFwUpdate cfg := by
  cases h : cfg.fwupdCode with
  | none => exact .inr ⟨.fwUpdateUnbound, fun s hs => by simp [State.buildFwUpdate, hs, h]⟩
  | some c =>
    exact .inl ⟨.ok (.command (commandBytes c 0#8 0#8)), fun s hs => by
      simp [State.buildFwUpdate, hs, h, State.build_eq]⟩

theorem execDecode_answersByConfig (F : Frame) (cfg : WireConfig) :
    AnswersByConfig (execDecode F) cfg := by
  cases h : decodeSample cfg F with
  | accepted S => exact .inl ⟨.ok (.sample S), fun s hs => by simp [execDecode, hs, h]⟩
  | rejected r =>
    exact .inl ⟨.error (.unrecognizedFrame F), fun s hs => by simp [execDecode, hs, h]⟩

theorem execLutRateHz_answersByConfig (rate : Byte) (cfg : WireConfig) :
    AnswersByConfig (execLutRateHz rate) cfg := by
  cases h : rateHz cfg.rateTable rate with
  | none => exact .inl ⟨.error (.badArgument rate), fun s hs => by simp [execLutRateHz, hs, h]⟩
  | some f => exact .inl ⟨.ok (.value f), fun s hs => by simp [execLutRateHz, hs, h]⟩

theorem execLutHzRate_answersByConfig (mhz : BitVec 24) (cfg : WireConfig) :
    AnswersByConfig (execLutHzRate mhz) cfg := by
  cases h : nearestRate mhz.toNat cfg.rateTable with
  | none => exact .inr ⟨.illFormedConfig, fun s hs => by simp [execLutHzRate, hs, h]⟩
  | some e => exact .inl ⟨.ok (.value e.1.toNat), fun s hs => by simp [execLutHzRate, hs, h]⟩

/-- Every instruction but FEED answers from the configuration alone: a case for each constructor, the
request and the builder of one command together. -/
theorem exec_answersByConfig {i : Instr} (hi : ∀ b, i ≠ .feed b) (cfg : WireConfig) :
    AnswersByConfig (exec i) cfg := by
  cases i with
  | feed b => exact absurd rfl (hi b)
  | frameStreamed p => exact .ok (fun _ => .sample (streamedSample p)) cfg
  | frameMag e => exact .echo e.regHi (fun c => echoFrame c.regMag e) (fun _ => magSample e) cfg
  | frameQuat e => exact .echo e.regHi (fun c => echoFrame c.regQuat e) (fun _ => quatSample e) cfg
  | frameTemp e => exact .echo e.regHi (fun c => echoFrame c.regTemp e) (fun _ => tempSample e) cfg
  | frameBatt e => exact .echo e.regHi (fun c => echoFrame c.regBatt e) (fun _ => battSample e) cfg
  | frameVersion e =>
    exact .echo e.regHi (fun c => echoFrame c.regVersion e) (fun _ => versionSample e) cfg
  | frameDateTime d =>
    exact .echo d.regHi (fun c => dateTimeFrame c.regDateTime d) (fun c => dateTimeSample c d) cfg
  | frameBurst reg e =>
    exact .echo e.regHi (fun _ => echoFrame reg e) (fun _ => burstSample reg e) cfg
  | decode F => exact execDecode_answersByConfig F cfg
  | cmdSave | encSave => exact .build (·.cmdSave) (·.argSave) (fun _ => 0#8) cfg
  | cmdRestore | encRestore => exact .build (·.cmdSave) (·.argRestore) (fun _ => 0#8) cfg
  | cmdCalAcc | encCalAcc => exact .build (·.cmdCal) (·.argCalAcc) (fun _ => 0#8) cfg
  | cmdCalMag | encCalMag => exact .build (·.cmdCal) (·.argCalMag) (fun _ => 0#8) cfg
  | cmdCalQuit | encCalQuit => exact .build (·.cmdCal) (·.argCalQuit) (fun _ => 0#8) cfg
  | cmdSetRate rate | encSetRate rate => exact .buildRate rate cfg
  | cmdReadReg reg | encReadReg reg =>
    exact .build (·.cmdRead) (fun _ => reg) (fun _ => 0#8) cfg
  | cmdTimeYm yy mon | encTimeYm yy mon =>
    exact .build (·.cmdTimeYm) (fun _ => yy) (fun _ => mon) cfg
  | cmdTimeDh day hour | encTimeDh day hour =>
    exact .build (·.cmdTimeDh) (fun _ => day) (fun _ => hour) cfg
  | cmdTimeMs min sec | encTimeMs min sec =>
    exact .build (·.cmdTimeMs) (fun _ => min) (fun _ => sec) cfg
  | cmdTimeMsec ms | encTimeMsec ms =>
    exact .build (·.cmdTimeMsec) (fun _ => ms.lo) (fun _ => ms.hi) cfg
  | cmdFwUpdate | encFwUpdate => exact .buildFwUpdate cfg
  | lutBatt cv => exact .ok (fun c => .value (battPercent c cv.toNat)) cfg
  | lutRateHz rate => exact execLutRateHz_answersByConfig rate cfg
  | lutHzRate mhz => exact execLutHzRate_answersByConfig mhz cfg

/-- An instruction other than FEED that gives a next state gives it in every state of the same
configuration, with the same response. -/
theorem exec_next_of_not_feed {i : Instr} {s t : State} (hi : ∀ b, i ≠ .feed b)
    (h : exec i s = .next t) :
    ∃ r, t = s.respond r ∧ ∀ u : State, u.cfg = s.cfg → exec i u = .next (u.respond r) := by
  obtain ⟨r, hr⟩ | ⟨q, hq⟩ := exec_answersByConfig hi s.cfg
  · exact ⟨r, Host.Outcome.next.inj (h.symm.trans (hr s rfl)), hr⟩
  · exact absurd (h.symm.trans (hq s rfl)) nofun

/-- Settles O50, from what `exec_answersByConfig` says of each constructor. -/
theorem onlyFeedChangesState : Obligations.OnlyFeedChangesState := fun _ _ _ hi h =>
  exec_next_of_not_feed hi h

end Sys2Proof.Machine
end

