-- ==== Sys2Proof/Proofs/PhaseInvariant.lean ====
section
/-! PROOF. The phase invariant (10_state.md R23): what it says in each phase, and that every step keeps
it. -/

namespace Sys2Proof.Machine

open Sys2Proof

/-! ### The invariant, phase by phase -/

theorem State.phaseInv_seekHeading {s : State} (hp : s.phase = .seekHeading) :
    s.PhaseInv ↔ s.cursor.val = 0 := by
  simp only [State.PhaseInv, hp]

theorem State.phaseInv_awaitFlag {s : State} (hp : s.phase = .awaitFlag) :
    s.PhaseInv ↔ s.cursor.val = 1 ∧ s.buf.read 0 = some heading := by
  simp only [State.PhaseInv, hp]

theorem State.phaseInv_awaitRegister {s : State} (hp : s.phase = .awaitRegister) :
    s.PhaseInv ↔ s.cursor.val = 2 ∧ s.buf.read 0 = some heading ∧ s.buf.read 1 = some flagReg := by
  simp only [State.PhaseInv, hp]

theorem State.phaseInv_collecting {s : State} (hp : s.phase = .collecting) :
    s.PhaseInv ↔ 2 ≤ s.cursor.val ∧ s.buf.read 0 = some heading
      ∧ (s.buf.read 1 = some flagStream ∨ s.buf.read 1 = some flagReg)
      ∧ (s.cursor.val = 2 → s.buf.read 1 = some flagStream) := by
  simp only [State.PhaseInv, hp]

/-- The invariant is about phase, cursor and buffer alone. -/
theorem State.Inv.of_arch_eq {s t : State} (hs : s.Inv) (h : t.arch = s.arch) : t.Inv := by
  cases s; cases t
  simp only [State.arch, Prod.mk.injEq] at h
  obtain ⟨rfl, rfl, rfl⟩ := h
  exact hs

/-- With the cursor at 0 no byte is asked for. -/
theorem State.inv_of_seekHeading {s : State} (hw : s.buf.wf = true) (hp : s.phase = .seekHeading)
    (hc : s.cursor = 0) : s.Inv :=
  ⟨hw, (State.phaseInv_seekHeading hp).mpr (by rw [hc]; rfl), fun o ho => by simp [hc] at ho⟩

/-- A byte stored at the cursor is known, and so are the bytes below it as before. -/
theorem State.Known.store {s t : State} (hk : s.Known) (b : Byte)
    (hb : t.buf = s.buf.write s.cursor b) (hc : t.cursor.val = s.cursor.val + 1) : t.Known := by
  intro o ho
  rw [hb]
  by_cases h : o = s.cursor.val
  · rw [h, Memory.read_write_same]; rfl
  · exact Memory.isSome_read_write _ _ _ (hk o (by omega))

/-! ### FEED, phase by phase (40_synchronizer.md R101 to R105) -/

theorem feedSeekHeading_keeps_inv {b : Byte} {s t : State} (hs : s.Inv)
    (hp : s.phase = .seekHeading) (h : feedSeekHeading b s = .next t) : t.Inv := by
  obtain ⟨hw, hphase, hk⟩ := hs
  have hc : s.cursor = 0 := Fin.ext ((State.phaseInv_seekHeading hp).mp hphase)
  unfold feedSeekHeading at h
  split at h
  · next hb =>
    cases h
    exact ⟨Memory.write_wf hw 0 b, ⟨rfl, hb ▸ Memory.read_write_same s.buf 0 b⟩,
      hk.store b (by rw [hc]; rfl) (by rw [hc]; rfl)⟩
  · cases h
    exact State.Inv.of_arch_eq ⟨hw, hphase, hk⟩ rfl

theorem feedAwaitFlag_keeps_inv {b : Byte} {s t : State} (hs : s.Inv)
    (hp : s.phase = .awaitFlag) (h : feedAwaitFlag b s = .next t) : t.Inv := by
  obtain ⟨hw, hphase, hk⟩ := hs
  obtain ⟨hcur, h0⟩ := (State.phaseInv_awaitFlag hp).mp hphase
  have hc : s.cursor = 1 := Fin.ext hcur
  have hw1 : (s.buf.write 1 b).wf = true := Memory.write_wf hw 1 b
  have h0' : (s.buf.write 1 b).read 0 = some heading :=
    (Memory.read_write_other s.buf 1 b (by decide)).trans h0
  have h1 : (s.buf.write 1 b).read 1 = some b := Memory.read_write_same s.buf 1 b
  simp only [feedAwaitFlag] at h
  split_ifs at h with hstream hreg hheading <;> cases h
  · exact ⟨hw1, ⟨le_rfl, h0', .inl (hstream ▸ h1), fun _ => hstream ▸ h1⟩,
      hk.store b (by rw [hc]; rfl) (by rw [hc]; rfl)⟩
  · exact ⟨hw1, ⟨rfl, h0', hreg ▸ h1⟩, hk.store b (by rw [hc]; rfl) (by rw [hc]; rfl)⟩
  · have hread := Memory.read_write_same (s.buf.write 1 b) 0 b
    refine ⟨Memory.write_wf hw1 0 b, ⟨rfl, hheading ▸ hread⟩, fun o ho => ?_⟩
    obtain rfl : o = 0 := Nat.lt_one_iff.mp ho
    exact Option.isSome_of_mem hread
  · exact State.inv_of_seekHeading hw1 rfl rfl

theorem feedAwaitRegister_keeps_inv {b : Byte} {s t : State} (hs : s.Inv)
    (hp : s.phase = .awaitRegister) (h : feedAwaitRegister b s = .next t) : t.Inv := by
  obtain ⟨hw, hphase, hk⟩ := hs
  obtain ⟨hcur, h0, h1⟩ := (State.phaseInv_awaitRegister hp).mp hphase
  have hc : s.cursor = 2 := Fin.ext hcur
  cases h
  exact ⟨Memory.write_wf hw 2 b,
    ⟨Nat.le_succ 2, (Memory.read_write_other s.buf 2 b (by decide)).trans h0,
      .inr ((Memory.read_write_other s.buf 2 b (by decide)).trans h1), nofun⟩,
    hk.store b (by rw [hc]; rfl) (by rw [hc]; rfl)⟩

/-- Emitting a frame leaves the buffer and seeks a heading again. -/
theorem emitFrame_keeps_inv {s t : State} (hw : s.buf.wf = true) (h : emitFrame s = .next t) :
    t.Inv := by
  unfold emitFrame at h
  split at h
  · cases h
  · cases h
    exact State.inv_of_seekHeading hw rfl rfl

theorem feedCollecting_keeps_inv {b : Byte} {s t : State} (hs : s.Inv)
    (hp : s.phase = .collecting) (h : feedCollecting b s = .next t) : t.Inv := by
  obtain ⟨hw, hphase, hk⟩ := hs
  obtain ⟨hcur, h0, h1, -⟩ := (State.phaseInv_collecting hp).mp hphase
  have hw' : (s.buf.write s.cursor b).wf = true := Memory.write_wf hw s.cursor b
  by_cases hlt : s.cursor.val + 1 < 20
  · rw [feedCollecting_of_lt b hlt] at h
    cases h
    refine ⟨hw', (State.phaseInv_collecting (by exact hp)).mpr ?_, hk.store b rfl rfl⟩
    dsimp only
    rw [Memory.read_write_other s.buf s.cursor b (show 0 ≠ s.cursor.val by omega),
      Memory.read_write_other s.buf s.cursor b (show 1 ≠ s.cursor.val by omega)]
    exact ⟨by omega, h0, h1, fun h2 => by omega⟩
  · rw [feedCollecting_of_last b hlt] at h
    exact emitFrame_keeps_inv hw' h

theorem execFeed_keeps_inv {b : Byte} {s t : State} (hs : s.Inv) (h : execFeed b s = .next t) :
    t.Inv := by
  unfold execFeed at h
  split at h
  · next hp => exact feedSeekHeading_keeps_inv hs hp h
  · next hp => exact feedAwaitFlag_keeps_inv hs hp h
  · next hp => exact feedAwaitRegister_keeps_inv hs hp h
  · next hp => exact feedCollecting_keeps_inv hs hp h

/-! ### Every instruction and every step -/

theorem exec_keeps_inv {i : Instr} {s t : State} (hs : s.Inv) (h : exec i s = .next t) : t.Inv := by
  by_cases hi : ∃ b, i = .feed b
  · obtain ⟨b, rfl⟩ := hi
    exact execFeed_keeps_inv hs h
  · obtain ⟨r, rfl, -⟩ := exec_next_of_not_feed (fun b hb => hi ⟨b, hb⟩) h
    exact hs.of_arch_eq rfl

/-- What a step that gives a next state can be: idle, or the oldest input taken, which is then answered
with an error, resets the block, or runs an instruction. -/
theorem step_next_cases {s t : State} (h : step s = .next t) :
    (s.pending = [] ∧ t = { s with resp := none }) ∨
      ∃ x rest, s.pending = x :: rest ∧
        ((∃ e, t = { s with pending := rest, resp := some (.error e) }) ∨
          (x = .reset ∧ t = { s.assertReset with pending := rest }) ∨
          ∃ i, State.take { s with pending := rest, resp := none } x
              = .run i { s with pending := rest, resp := none }
            ∧ exec i { s with pending := rest, resp := none } = .next t) := by
  cases hw : s.cfg.wf with
  | false => simp [step, State.fetch_of_not_wf hw] at h
  | true =>
    unfold step at h
    cases hp : s.pending with
    | nil =>
      rw [State.fetch_nil hw hp] at h
      cases h
      exact .inl ⟨rfl, by rw [← hp]⟩
    | cons x rest =>
      rw [State.fetch_cons hw hp] at h
      refine .inr ⟨x, rest, rfl, ?_⟩
      obtain ⟨i, hx⟩ | ⟨e, hx⟩ | ⟨hr, hx⟩ :=
        State.take_cases { s with pending := rest, resp := none } x <;> rw [hx] at h
      · exact .inr (.inr ⟨i, hx, h⟩)
      · cases h
        exact .inl ⟨e, rfl⟩
      · cases h
        exact .inr (.inl ⟨hr, rfl⟩)

theorem step_keeps_inv {s t : State} (hs : s.Inv) (h : step s = .next t) : t.Inv := by
  obtain ⟨-, rfl⟩ | ⟨_, rest, -, ⟨e, rfl⟩ | ⟨-, rfl⟩ | ⟨i, -, hi⟩⟩ := step_next_cases h
  · exact hs.of_arch_eq rfl
  · exact hs.of_arch_eq rfl
  · obtain ⟨hw, -, -⟩ := hs
    exact State.inv_of_seekHeading hw rfl rfl
  · exact exec_keeps_inv (s := { s with pending := rest, resp := none }) (hs.of_arch_eq rfl) hi

theorem State.reset_inv : State.reset.Inv := State.inv_of_seekHeading rfl rfl rfl

/-- Settles O26, by cases on what the step takes and, for FEED, on the phase. -/
theorem everyStepKeepsTheInvariant : Obligations.EveryStepKeepsTheInvariant :=
  ⟨State.reset_inv, fun _ _ => step_keeps_inv⟩

end Sys2Proof.Machine
end

