-- ==== Sys2Proof/Proofs/Synchronizer.lean ====
section
/-! PROOF. FEED phase by phase (40_synchronizer.md R101 to R107): its exact next state in each, the frame
that the 20th byte completes, and when that frame fails to decode. -/

namespace Sys2Proof.Machine

open Sys2Proof

/-! ### The meaning of FEED in each phase -/

/-- The meaning of the instruction FEED (R100). -/
theorem exec_feed (b : Byte) (s : State) : exec (.feed b) s = execFeed b s := rfl

section Phases

variable {s : State}

theorem exec_feed_seekHeading (b : Byte) (hp : s.phase = .seekHeading) :
    exec (.feed b) s = feedSeekHeading b s := by
  rw [exec_feed, execFeed, hp]

theorem exec_feed_awaitFlag (b : Byte) (hp : s.phase = .awaitFlag) :
    exec (.feed b) s = feedAwaitFlag b s := by
  rw [exec_feed, execFeed, hp]

/-- AwaitRegister compares the byte with nothing (R103). -/
theorem exec_feed_awaitRegister (b : Byte) (hp : s.phase = .awaitRegister) :
    exec (.feed b) s = .next { s with
      buf := s.buf.write 2 b, cursor := 3, phase := .collecting, resp := some .noFrame } := by
  rw [exec_feed, execFeed, hp]; rfl

theorem exec_feed_collecting (b : Byte) (hp : s.phase = .collecting) :
    exec (.feed b) s = feedCollecting b s := by
  rw [exec_feed, execFeed, hp]

end Phases

/-! ### SeekHeading and AwaitFlag, byte class by byte class (R101, R102) -/

theorem feedSeekHeading_heading (s : State) :
    feedSeekHeading heading s = .next { s with
      buf := s.buf.write 0 heading, cursor := 1, phase := .awaitFlag, resp := some .noFrame } :=
  if_pos rfl

theorem feedSeekHeading_of_ne {b : Byte} (hb : b ≠ heading) (s : State) :
    feedSeekHeading b s = .next { s with resp := some .noFrame } := if_neg hb

theorem feedAwaitFlag_flagStream (s : State) :
    feedAwaitFlag flagStream s = .next { s with
      buf := s.buf.write 1 flagStream, cursor := 2, phase := .collecting,
      resp := some .noFrame } := by
  rw [feedAwaitFlag, if_pos rfl]; rfl

theorem feedAwaitFlag_flagReg (s : State) :
    feedAwaitFlag flagReg s = .next { s with
      buf := s.buf.write 1 flagReg, cursor := 2, phase := .awaitRegister,
      resp := some .noFrame } := by
  rw [feedAwaitFlag, if_neg (by decide), if_pos rfl]; rfl

theorem feedAwaitFlag_heading (s : State) :
    feedAwaitFlag heading s = .next { s with
      buf := (s.buf.write 1 heading).write 0 heading, cursor := 1, phase := .awaitFlag,
      resp := some .noFrame } := by
  rw [feedAwaitFlag, if_neg (by decide), if_neg (by decide), if_pos rfl]; rfl

theorem feedAwaitFlag_of_ne {b : Byte} (hstream : b ≠ flagStream) (hreg : b ≠ flagReg)
    (hhead : b ≠ heading) (s : State) :
    feedAwaitFlag b s = .next { s with
      buf := s.buf.write 1 b, cursor := 0, phase := .seekHeading, resp := some .noFrame } := by
  rw [feedAwaitFlag, if_neg hstream, if_neg hreg, if_neg hhead]; rfl

/-- R102's comparison: a byte that is no flag leaves the block where SeekHeading would, but for the stale
byte at offset 1. -/
theorem feedAwaitFlag_agrees_with_seekHeading {b : Byte} (hstream : b ≠ flagStream)
    (hreg : b ≠ flagReg) (s : State) :
    ∃ t u, feedAwaitFlag b s = .next t
      ∧ feedSeekHeading b { s with phase := .seekHeading, cursor := 0 } = .next u
      ∧ t.phase = u.phase ∧ t.cursor = u.cursor ∧ t.resp = u.resp
      ∧ ∀ o, o ≠ 1 → t.buf.read o = u.buf.read o := by
  have stale (o : Nat) (ho : o ≠ 1) : (s.buf.write 1 b).read o = s.buf.read o :=
    Memory.read_write_other s.buf 1 b ho
  by_cases hb : b = heading
  · subst hb
    refine ⟨_, _, feedAwaitFlag_heading s, feedSeekHeading_heading _, rfl, rfl, rfl, fun o ho => ?_⟩
    dsimp only
    rw [Memory.read_write, stale o ho, ← Memory.read_write]
  · exact ⟨_, _, feedAwaitFlag_of_ne hstream hreg hb s, feedSeekHeading_of_ne hb _, rfl, rfl, rfl,
      stale⟩

/-! ### The completed frame (R105, R106) -/

/-- Nineteen known bytes and the byte written to the last offset make the frame. -/
theorem Memory.frame_write_last {m : Memory} {F : Frame}
    (h : ∀ o : Fin 20, o.val < 19 → m.read o.val = some F[o.val]) :
    (m.write 19 F[19]).frame = some F := by
  refine (Memory.frame_eq_some _ F).mpr fun o => ?_
  by_cases ho : o.val < 19
  · rw [Memory.read_write_other m 19 _ (show o.val ≠ 19 by omega), h o ho]
  · obtain rfl : o = 19 := Fin.ext (by omega)
    exact Memory.read_write_same m 19 F[19]

theorem completion_of_accepted {cfg : WireConfig} {F : Frame} {S : Sample}
    (h : decodeSample cfg F = .accepted S) : completion cfg F = .ok (.frame F S) := by
  unfold completion; rw [h]

theorem completion_of_rejected {cfg : WireConfig} {F : Frame} {r : Reject}
    (h : decodeSample cfg F = .rejected r) : completion cfg F = .error (.unrecognizedFrame F) := by
  unfold completion; rw [h]

/-- The 20th byte takes the frame that `buf` then holds, and the synchronizer seeks again. -/
theorem exec_feed_lastByte {s : State} {b : Byte} {F : Frame} (hp : s.phase = .collecting)
    (hc : s.cursor.val = 19) (hF : (s.buf.write 19 b).frame = some F) :
    exec (.feed b) s = .next { s with
      buf := s.buf.write 19 b, cursor := 0, phase := .seekHeading,
      resp := some (completion s.cfg F) } := by
  have hc' : s.cursor = 19 := Fin.ext hc
  rw [exec_feed_collecting b hp, feedCollecting_of_last b (by omega), hc',
    emitFrame_of_frame (s := { s with buf := s.buf.write 19 b, cursor := 19 }) hF]

/-- Under the invariant the 20th byte completes a frame, which begins with a heading and a flag. -/
theorem State.Inv.completed_frame {s : State} (hs : s.Inv) (b : Byte) (hp : s.phase = .collecting)
    (hc : s.cursor.val = 19) :
    ∃ F, (s.buf.write 19 b).frame = some F ∧ F[0] = heading
      ∧ (F[1] = flagStream ∨ F[1] = flagReg) := by
  obtain ⟨-, hphase, hk⟩ := hs
  obtain ⟨-, h0, h1, -⟩ := (State.phaseInv_collecting hp).mp hphase
  have known (o : Fin 20) : ((s.buf.write 19 b).read o.val).isSome = true := by
    by_cases ho : o.val < 19
    · exact Memory.isSome_read_write _ _ _ (hk o.val (by omega))
    · obtain rfl : o = 19 := Fin.ext (by omega)
      exact Option.isSome_of_mem (Memory.read_write_same s.buf 19 b)
  obtain ⟨F, hF⟩ := Memory.frame_isSome known
  have held (o : Fin 20) (ho : o.val ≠ 19) : s.buf.read o.val = some F[o.val] :=
    (Memory.read_write_other s.buf 19 b ho).symm.trans ((Memory.frame_eq_some _ F).mp hF o)
  have hF0 : s.buf.read 0 = some F[0] := held 0 (by decide)
  have hF1 : s.buf.read 1 = some F[1] := held 1 (by decide)
  rw [hF0] at h0
  rw [hF1] at h1
  exact ⟨F, hF, Option.some.inj h0, h1.imp Option.some.inj Option.some.inj⟩

/-- Behind a heading and a flag, decoding fails through the check of byte 3 alone (R106). -/
theorem decodeSample_rejected_iff {cfg : WireConfig} {F : Frame} (h0 : F[0] = heading)
    (h1 : F[1] = flagStream ∨ F[1] = flagReg) :
    (∃ r, decodeSample cfg F = .rejected r)
      ↔ cfg.checkRegHi = true ∧ F[1] = flagReg ∧ F[3] ≠ regHiExpected := by
  obtain ⟨k, hk, hd⟩ | ⟨r, hr, hd⟩ := decodeSample_cases cfg F <;> rw [hd]
  · refine ⟨fun ⟨_, h⟩ => (nomatch h), fun ⟨hchk, hreg, h3⟩ => ?_⟩
    obtain ⟨-, ⟨hstream, -⟩ | ⟨-, hpass, -⟩⟩ := classify_accepted hk
    · exact absurd (hstream.symm.trans hreg) (by decide)
    · exact absurd (hpass hchk) h3
  · refine ⟨fun _ => ?_, fun _ => ⟨r, rfl⟩⟩
    obtain hn | ⟨hns, hnr⟩ | ⟨hreg, hchk, h3⟩ := classify_rejected hr
    · exact absurd h0 hn
    · exact (h1.elim hns hnr).elim
    · exact ⟨hchk, hreg, h3⟩

/-! ### Payload bytes (R104, R107) -/

/-- In Collecting before the last byte (R104). -/
theorem exec_feed_collecting_of_lt {s : State} (b : Byte) (hp : s.phase = .collecting)
    (h : s.cursor.val + 1 < 20) :
    exec (.feed b) s = .next { s with
      buf := s.buf.write s.cursor b, cursor := ⟨s.cursor.val + 1, h⟩, resp := some .noFrame } :=
  (exec_feed_collecting b hp).trans (feedCollecting_of_lt b h)

/-- A payload byte before the 20th, the register byte included: stored at the cursor and counted. -/
theorem State.Inv.exec_feed_payload {s : State} (hs : s.Inv) (b : Byte)
    (hp : s.phase = .awaitRegister ∨ s.phase = .collecting) (h : s.cursor.val + 1 < 20) :
    exec (.feed b) s = .next { s with
      buf := s.buf.write s.cursor b, cursor := ⟨s.cursor.val + 1, h⟩, phase := .collecting,
      resp := some .noFrame } := by
  obtain hp | hp := hp
  · obtain ⟨-, hphase, -⟩ := hs
    obtain ⟨hcur, -, -⟩ := (State.phaseInv_awaitRegister hp).mp hphase
    have hc : s.cursor = 2 := Fin.ext hcur
    simp only [exec_feed_awaitRegister b hp, hc]; rfl
  · rw [exec_feed_collecting_of_lt b hp h, ← hp]

/-! ### The statements of the family -/

/-- Settles O21: the frame is taken by `exec_feed_lastByte`, and `completion` answers it. -/
theorem lastByteEmitsTheDecodedFrame : Obligations.LastByteEmitsTheDecodedFrame := by
  rintro s _ F hp hc hheld rfl
  have hx := exec_feed_lastByte hp hc (Memory.frame_write_last hheld)
  exact ⟨fun S hS => by rw [hx, completion_of_accepted hS],
    fun r hr => by rw [hx, completion_of_rejected hr]⟩

/-- Settles O24, by cases on whether the byte is the 20th; neither case looks at the byte. -/
theorem payloadBytesAreNotInterpreted : Obligations.PayloadBytesAreNotInterpreted := by
  intro s b b' hs hp
  by_cases hlt : s.cursor.val + 1 < 20
  · exact ⟨_, _, hs.exec_feed_payload b hp hlt, hs.exec_feed_payload b' hp hlt, rfl, rfl,
      Memory.read_write_same _ _ _, Memory.read_write_same _ _ _, fun _ => ⟨rfl, rfl, rfl⟩,
      fun h => by omega⟩
  · have hc : s.cursor.val = 19 := by omega
    have hcollect : s.phase = .collecting := hp.resolve_left fun hreg => by
      obtain ⟨-, hphase, -⟩ := hs
      obtain ⟨hcur, -, -⟩ := (State.phaseInv_awaitRegister hreg).mp hphase
      omega
    obtain ⟨F, hF, -, -⟩ := hs.completed_frame b hcollect hc
    obtain ⟨F', hF', -, -⟩ := hs.completed_frame b' hcollect hc
    rw [hc]
    exact ⟨_, _, exec_feed_lastByte hcollect hc hF, exec_feed_lastByte hcollect hc hF', rfl, rfl,
      Memory.read_write_same _ 19 _, Memory.read_write_same _ 19 _, fun h => absurd h (by decide),
      fun _ => ⟨rfl, rfl⟩⟩

/-- Settles O25: the invariant gives the frame with its heading and flag, and
`decodeSample_rejected_iff` says when decoding it fails. -/
theorem completedFrameFailsOnlyOnByteThree : Obligations.CompletedFrameFailsOnlyOnByteThree := by
  intro s b hs hp hc
  obtain ⟨F, hF, h0, h1⟩ := hs.completed_frame b hp hc
  refine ⟨_, F, exec_feed_lastByte hp hc hF, hF, rfl, rfl, h0, h1, fun hbad => ?_, fun hgood => ?_⟩
  · obtain ⟨r, hr⟩ := (decodeSample_rejected_iff h0 h1).mpr hbad
    exact ⟨⟨r, hr⟩, congrArg some (completion_of_rejected hr)⟩
  · cases hd : decodeSample s.cfg F with
    | accepted S => exact ⟨S, rfl, congrArg some (completion_of_accepted hd)⟩
    | rejected r => exact absurd ((decodeSample_rejected_iff h0 h1).mp ⟨r, hd⟩) hgood

/-- Settles O18, by the class of the byte. -/
theorem awaitFlagClassifiesTheFlag : Obligations.AwaitFlagClassifiesTheFlag := by
  intro s b hp
  rw [exec_feed_awaitFlag b hp, exec_feed_seekHeading b rfl]
  refine ⟨?stream, ?reg, ?secondHeading, fun hstream hreg hhead => ?invalid,
    fun hstream hreg => ?agrees⟩
  case stream => rintro rfl; exact feedAwaitFlag_flagStream s
  case reg => rintro rfl; exact feedAwaitFlag_flagReg s
  case secondHeading => rintro rfl; exact feedAwaitFlag_heading s
  case invalid => exact feedAwaitFlag_of_ne hstream hreg hhead s
  case agrees => exact feedAwaitFlag_agrees_with_seekHeading hstream hreg s

/-- Settles O19. -/
theorem awaitRegisterTakesEveryByte : Obligations.AwaitRegisterTakesEveryByte := fun _ b hp =>
  exec_feed_awaitRegister b hp

/-- Settles O20. -/
theorem collectingStoresEveryByte : Obligations.CollectingStoresEveryByte := fun _ b h hp =>
  exec_feed_collecting_of_lt b hp h

end Sys2Proof.Machine
end

