-- ==== Sys2Proof/Proofs/FrameDecoder.lean ====
section
/-! PROOF. DECODE (41_decoder.md R120 to R142): what it answers, the bytes each frame kind reads, and how
a streamed frame is recovered from its fields or its sample. -/

namespace Sys2Proof.Machine

open Sys2Proof

/-! ### Classification and the sample (R120, R123, R124, R130) -/

theorem decodeSample_of_classify {cfg : WireConfig} {F : Frame} {k : FrameKind}
    (h : classify cfg F = .accepted k) : decodeSample cfg F = .accepted (sampleOf cfg F k) := by
  unfold decodeSample; rw [h]

/-- A bad heading, a bad flag or a refused byte 3 is no frame. -/
theorem decodeSample_rejected_of_noFrame {cfg : WireConfig} {F : Frame}
    (h : F[0] ≠ heading ∨ (F[1] ≠ flagStream ∧ F[1] ≠ flagReg)
      ∨ (cfg.checkRegHi = true ∧ F[1] = flagReg ∧ F[3] ≠ regHiExpected)) :
    ∃ r, decodeSample cfg F = .rejected r := by
  obtain ⟨k, hk, -⟩ | ⟨r, -, hr⟩ := decodeSample_cases cfg F
  · obtain ⟨h0, hflag⟩ := classify_accepted hk
    obtain hn | ⟨hns, hnr⟩ | hbad := h
    · exact absurd h0 hn
    · obtain ⟨hs, -⟩ | ⟨hr, -⟩ := hflag
      · exact absurd hs hns
      · exact absurd hr hnr
    · exact (decodeSample_rejected_iff h0 (hflag.imp And.left And.left)).mpr hbad
  · exact ⟨r, hr⟩

/-- Classification looks at bytes 0 to 2, and at byte 3 only under CHECK_REG_HI. -/
theorem classify_congr {cfg : WireConfig} {F G : Frame} (h0 : F[0] = G[0]) (h1 : F[1] = G[1])
    (h2 : F[2] = G[2]) (h3 : cfg.checkRegHi = true → F[3] = G[3]) :
    classify cfg F = classify cfg G := by
  have hcheck : (cfg.checkRegHi = true ∧ F[3] ≠ regHiExpected)
      ↔ (cfg.checkRegHi = true ∧ G[3] ≠ regHiExpected) :=
    and_congr_right fun hc => by rw [h3 hc]
  simp only [classify, h0, h1, h2, hcheck]

/-! ### The meaning of DECODE -/

/-- The meaning of the instruction DECODE (R120). -/
theorem exec_decode (F : Frame) (s : State) : exec (.decode F) s = execDecode F s := rfl

theorem exec_decode_of_accepted {s : State} {F : Frame} {S : Sample}
    (h : decodeSample s.cfg F = .accepted S) :
    exec (.decode F) s = .next { s with resp := some (.ok (.sample S)) } := by
  rw [exec_decode, execDecode, h]; rfl

theorem exec_decode_of_rejected {s : State} {F : Frame} {r : Reject}
    (h : decodeSample s.cfg F = .rejected r) :
    exec (.decode F) s = .next { s with resp := some (.error (.unrecognizedFrame F)) } := by
  rw [exec_decode, execDecode, h]; rfl

/-- A register echo that passes R130's check answers the sample of the kind its register selects. -/
theorem exec_decode_echo {s : State} {F : Frame} {k : FrameKind} (h0 : F[0] = heading)
    (h1 : F[1] = flagReg) (h3 : s.cfg.checkRegHi = true → F[3] = regHiExpected)
    (hk : echoKind s.cfg F[2] = k) :
    exec (.decode F) s = .next { s with resp := some (.ok (.sample (sampleOf s.cfg F k))) } :=
  exec_decode_of_accepted (decodeSample_of_classify (hk ▸ classify_echo s.cfg F h0 h1 h3))

/-! ### The bytes a kind reads (R141) -/

/-- Two frames hold the same bytes at the listed offsets. -/
def AgreeOn (offsets : List Nat) (F G : Frame) : Prop :=
  ∀ o : Fin 20, o.val ∈ offsets → F[o.val] = G[o.val]

theorem AgreeOn.byte {offsets : List Nat} {F G : Frame} (h : AgreeOn offsets F G) {o : Nat}
    (ho : o < 20) (hm : o ∈ offsets) : F[o] = G[o] := h ⟨o, ho⟩ hm

theorem AgreeOn.le16 {offsets : List Nat} {F G : Frame} (h : AgreeOn offsets F G) {o : Nat}
    (ho : o + 1 < 20) (hlo : o ∈ offsets) (hhi : o + 1 ∈ offsets) : F.le16 o ho = G.le16 o ho := by
  unfold Frame.le16
  rw [h.byte (Nat.lt_of_succ_lt ho) hlo, h.byte ho hhi]

/-- The sample of a kind depends on the register byte and the offsets the kind reads. -/
theorem sampleOf_congr (cfg : WireConfig) {F G : Frame} {k : FrameKind} (h2 : F[2] = G[2])
    (h : AgreeOn (readOffsets k) F G) : sampleOf cfg F k = sampleOf cfg G k := by
  cases k with
  | streamed =>
    simp (disch := decide) only [sampleOf, streamedSample, Frame.streamFields, h.le16]
  | mag => simp (disch := decide) only [sampleOf, magSample, Frame.echoFields, h.le16]
  | quat => simp (disch := decide) only [sampleOf, quatSample, Frame.echoFields, h.le16]
  | temp => simp (disch := decide) only [sampleOf, tempSample, Frame.echoFields, h.le16]
  | batt => simp (disch := decide) only [sampleOf, battSample, Frame.echoFields, h.le16]
  | version => simp (disch := decide) only [sampleOf, versionSample, Frame.echoFields, h.le16]
  | dateTime =>
    simp (disch := decide) only [sampleOf, dateTimeSample, Frame.dateTimeFields, h.byte, h.le16]
  | burst => simp (disch := decide) only [sampleOf, burstSample, Frame.echoFields, h2, h.le16]

/-! ### Recovering a streamed frame (R142) -/

/-- A streamed frame is R62's layout of its own fields. -/
theorem streamFrame_streamFields {F : Frame} (h0 : F[0] = heading) (h1 : F[1] = flagStream) :
    streamFrame F.streamFields = F := by
  apply Vector.ext
  intro i hi
  interval_cases i <;> simp [streamFrame, Frame.streamFields, h0, h1]

/-- The s16 reading of a word, written back in two's complement, is the word. -/
@[simp] theorem ofInt_s16 (v : HalfWord) : BitVec.ofInt 16 (s16 v) = v := BitVec.ofInt_toInt

theorem accel_recovers_raw (v : HalfWord) :
    ((accel v).num : ℚ) / (accel v).den * 2048 = s16 v := by
  simp only [accel]; push_cast; ring

theorem gyro_recovers_raw (v : HalfWord) :
    ((gyro v).num : ℚ) / (gyro v).den * 2048 / 125 = s16 v := by
  simp only [gyro]; push_cast; ring

theorem angle_recovers_raw (v : HalfWord) :
    ((angle v).num : ℚ) / (angle v).den * 8192 / 45 = s16 v := by
  simp only [angle]; push_cast; ring

/-- A scale from whose values the raw reading can be computed maps no two words to one value. -/
theorem scale_injective {f : HalfWord → Fixed} {raw : Fixed → ℚ} (h : ∀ v, raw (f v) = s16 v) :
    Function.Injective f := fun v w hvw => by
  have hs : (s16 v : ℚ) = s16 w := by rw [← h v, ← h w, hvw]
  exact BitVec.toInt_inj.mp (Int.cast_injective hs)

theorem accel_injective : Function.Injective accel :=
  scale_injective (raw := fun q => q.num / q.den * 2048) accel_recovers_raw

theorem gyro_injective : Function.Injective gyro :=
  scale_injective (raw := fun q => q.num / q.den * 2048 / 125) gyro_recovers_raw

theorem angle_injective : Function.Injective angle :=
  scale_injective (raw := fun q => q.num / q.den * 8192 / 45) angle_recovers_raw

theorem streamedSample_injective : Function.Injective streamedSample := by
  rintro ⟨⟩ ⟨⟩ h
  simpa only [streamedSample, Sample.streamed.injEq, Vec3.mk.injEq, accel_injective.eq_iff,
    gyro_injective.eq_iff, angle_injective.eq_iff, StreamFields.mk.injEq, and_assoc] using h

/-- A frame with flag 0x61 that decodes has the heading, and its sample is that of its fields. -/
theorem decodeSample_streamed {cfg : WireConfig} {F : Frame} {S : Sample} (h1 : F[1] = flagStream)
    (h : decodeSample cfg F = .accepted S) : F[0] = heading ∧ S = streamedSample F.streamFields := by
  obtain ⟨k, hk, -⟩ | ⟨r, -, hr⟩ := decodeSample_cases cfg F
  · obtain ⟨h0, -⟩ := classify_accepted hk
    rw [decodeSample_of_classify (classify_streamed cfg F h0 h1)] at h
    cases h
    exact ⟨h0, rfl⟩
  · cases h.symm.trans hr

/-! ### The statements of the family -/

/-- Settles O35: the frames are classified alike, and the kind's sample reads only bytes on which they
agree. -/
theorem unreadBytesDoNotMatter : Obligations.UnreadBytesDoNotMatter := by
  intro cfg F G k hk h0 h1 h2 h3 hread
  have hkG : classify cfg G = .accepted k := (classify_congr h0 h1 h2 h3).symm.trans hk
  rw [decodeSample_of_classify hk, decodeSample_of_classify hkG, sampleOf_congr cfg h2 hread]

/-- Settles O36: the layout gives the frame back from its fields, and the sample gives the fields, since
each scaled value determines its raw word. -/
theorem streamedFrameIsRecoveredFromItsFields :
    Obligations.StreamedFrameIsRecoveredFromItsFields := by
  refine ⟨fun F h0 h1 => ?reencoded, fun cfg F G S hF hG hSF hSG => ?sameSample,
    fun v => ⟨accel_recovers_raw v, gyro_recovers_raw v, angle_recovers_raw v⟩⟩
  case reencoded =>
    simp only [ofInt_s16]
    exact streamFrame_streamFields h0 h1
  case sameSample =>
    obtain ⟨hF0, hS⟩ := decodeSample_streamed hF hSF
    obtain ⟨hG0, hS'⟩ := decodeSample_streamed hG hSG
    calc F = streamFrame F.streamFields := (streamFrame_streamFields hF0 hF).symm
      _ = streamFrame G.streamFields := by rw [streamedSample_injective (hS.symm.trans hS')]
      _ = G := streamFrame_streamFields hG0 hG

/-- Settles O31. -/
theorem decodeStreamedGivesScaledTriples : Obligations.DecodeStreamedGivesScaledTriples :=
  fun s F h0 h1 =>
    exec_decode_of_accepted (decodeSample_of_classify (classify_streamed s.cfg F h0 h1))

/-- Settles O32, register by register: under a well-formed configuration each selects its own kind. -/
theorem decodeRegisterEchoGivesItsSample : Obligations.DecodeRegisterEchoGivesItsSample := by
  intro s F hw h0 h1 h3
  obtain ⟨hmag, hquat, htemp, hbatt, hversion, hdateTime⟩ :=
    echoKind_named (WireConfig.wf_regNumbers hw)
  have decodes (k : FrameKind) (hk : echoKind s.cfg F[2] = k) := exec_decode_echo h0 h1 h3 hk
  refine ⟨fun h => ?mag, fun h => ?quat, fun h => ?temp, fun h => ?batt, fun h => ?version,
    fun h => ?dateTime, fun h => ?burst⟩
  case mag => exact decodes .mag (h ▸ hmag)
  case quat => exact decodes .quat (h ▸ hquat)
  case temp => exact decodes .temp (h ▸ htemp)
  case batt => exact decodes .batt (h ▸ hbatt)
  case version => exact decodes .version (h ▸ hversion)
  case dateTime => exact decodes .dateTime (h ▸ hdateTime)
  case burst => exact decodes .burst (echoKind_burst h)

/-- Settles O33. -/
theorem decodeRefusesWhatIsNoFrame : Obligations.DecodeRefusesWhatIsNoFrame := by
  intro s F h
  obtain ⟨r, hr⟩ := decodeSample_rejected_of_noFrame h
  exact exec_decode_of_rejected hr

/-- Settles O34, by what `decodeSample` gives for the frame and the configuration. -/
theorem decodeIsTotalAndPure : Obligations.DecodeIsTotalAndPure := by
  intro F cfg
  cases h : decodeSample cfg F with
  | accepted S => exact ⟨_, .inl ⟨S, rfl⟩, by rintro s rfl; exact exec_decode_of_accepted h⟩
  | rejected r => exact ⟨_, .inr rfl, by rintro s rfl; exact exec_decode_of_rejected h⟩

end Sys2Proof.Machine
end

