-- ==== Sys2Proof/Proofs/Exceptions.lean ====
section
/-! PROOF. The errors (60_exceptions.md R200 to R206): which request words are illegal, and what a step
that answers an error leaves unchanged. -/

namespace Sys2Proof.Machine

open Sys2Proof

/-! ### Illegal request words (R202) -/

/-- A request word is accepted through a row that has its op and whose reserved bits it leaves zero, or
it is rejected. -/
theorem decodeRequest_cases (w : ReqWord) (d : DecIn) :
    (∃ row ∈ requestRows, reqOp w = row.op ∧ w &&& row.reserved = 0#32
        ∧ decodeRequest w d = .accepted (row.build w d)) ∨
      ∃ r, decodeRequest w d = .rejected r := by
  unfold decodeRequest
  cases hfind : requestRows.find? (fun row => row.op == reqOp w) with
  | none => exact .inr ⟨_, rfl⟩
  | some row =>
    by_cases hres : w &&& row.reserved = 0#32
    · have hop : row.op = reqOp w := by simpa using List.find?_some hfind
      exact .inl ⟨row, List.mem_of_find?_eq_some hfind, hop.symm, hres, if_pos hres⟩
    · exact .inr ⟨_, if_neg hres⟩

/-- The ops and reserved bits of R66 are those of the rows that decoding reads. -/
theorem assignedOps_eq_requestRows :
    assignedOps = requestRows.map fun row => (row.op, row.reserved) := rfl

/-- A word that has no assigned op, or has one with a reserved bit set, is rejected. -/
theorem decodeRequest_rejected_of_illegal {w : ReqWord} (d : DecIn)
    (h : ∀ e ∈ assignedOps, reqOp w = e.1 → w &&& e.2 ≠ 0#32) :
    ∃ r, decodeRequest w d = .rejected r := by
  refine (decodeRequest_cases w d).resolve_left fun ⟨row, hrow, hop, hres, _⟩ => ?_
  have hmem : (row.op, row.reserved) ∈ assignedOps :=
    assignedOps_eq_requestRows ▸ List.mem_map_of_mem hrow
  exact h _ hmem hop hres

/-- A request word that decodes to nothing raises ILLEGAL_REQUEST. -/
theorem State.take_request_of_rejected {s : State} {w : ReqWord} {d : DecIn} {r : Reject}
    (h : decodeRequest w d = .rejected r) :
    s.take (.request w d) = .done (s.respond (.error (.illegalRequest w))) := by
  simp only [State.take, h]

/-- Settles O9: decoding rejects the word, and a rejected word is answered in the state it was taken
from. -/
theorem illegalRequestIsAnsweredAndChangesNothing :
    Obligations.IllegalRequestIsAnsweredAndChangesNothing := by
  intro s w d rest hw hp hillegal
  obtain ⟨r, hr⟩ := decodeRequest_rejected_of_illegal d hillegal
  rw [step, State.fetch_cons hw hp, State.take_request_of_rejected hr]
  rfl

/-! ### Where a FEED comes from (R66, R74) -/

/-- A FRAME row is no request: what a frame decodes to is no host request. -/
theorem frameInstr_format_ne_hreq (F : Frame) (k : FrameKind) : (frameInstr F k).format ≠ .hreq := by
  cases k <;> exact nofun

/-- Only a request word brings a FEED to be run. -/
theorem State.request_of_take_run_feed {s u : State} {x : Input} {b : Byte}
    (h : s.take x = .run (.feed b) u) :
    ∃ w d, x = .request w d ∧ decodeRequest w d = .accepted (.feed b) := by
  cases x with
  | request w d =>
    obtain ⟨row, -, -, -, hd⟩ | ⟨r, hd⟩ := decodeRequest_cases w d
    · rw [State.take_request hd] at h
      injection h with hi
      exact ⟨w, d, rfl, hi ▸ hd⟩
    · cases (State.take_request_of_rejected hd).symm.trans h
  | frame F =>
    simp only [State.take, decodeFrame] at h
    cases hk : classify s.cfg F with
    | accepted k =>
      simp only [hk] at h
      injection h with hi
      exact absurd (congrArg Instr.format hi) (frameInstr_format_ne_hreq F k)
    | rejected r => simp [hk] at h
  | builder c =>
    injection h with hi
    exact absurd (c.instr_format.symm.trans (congrArg Instr.format hi)) nofun
  | reset => cases h

/-! ### The FEED that answers an error (R203) -/

/-- A FEED that stores no 20th byte answers NONE. -/
theorem exec_feed_noFrame {s t : State} {b : Byte} (h : exec (.feed b) s = .next t)
    (hlast : ¬ (s.phase = .collecting ∧ s.cursor.val = 19)) : t.resp = some .noFrame := by
  cases hp : s.phase with
  | seekHeading =>
    rw [exec_feed_seekHeading b hp, feedSeekHeading] at h
    split at h <;> cases h <;> rfl
  | awaitFlag =>
    rw [exec_feed_awaitFlag b hp] at h
    simp only [feedAwaitFlag] at h
    split_ifs at h <;> cases h <;> rfl
  | awaitRegister =>
    rw [exec_feed_awaitRegister b hp] at h
    cases h
    rfl
  | collecting =>
    have hlt : s.cursor.val + 1 < 20 := by
      have : s.cursor.val ≠ 19 := fun hc => hlast ⟨hp, hc⟩
      omega
    rw [exec_feed_collecting_of_lt b hp hlt] at h
    cases h
    rfl

/-- A FEED of the 20th byte that gives a next state took the frame that `buf` then holds. -/
theorem exec_feed_lastByte_next {s t : State} {b : Byte} (h : exec (.feed b) s = .next t)
    (hp : s.phase = .collecting) (hc : s.cursor.val = 19) :
    ∃ F, (s.buf.write 19 b).frame = some F ∧ t = { s with
      buf := s.buf.write 19 b, cursor := 0, phase := .seekHeading,
      resp := some (completion s.cfg F) } := by
  cases hF : (s.buf.write 19 b).frame with
  | some F => exact ⟨F, rfl, Host.Outcome.next.inj (h.symm.trans (exec_feed_lastByte hp hc hF))⟩
  | none =>
    have hc' : s.cursor = 19 := Fin.ext hc
    rw [exec_feed_collecting b hp, feedCollecting_of_last b (by omega), hc', emitFrame] at h
    simp [hF] at h

/-- The one error that completing a frame can answer names that frame. -/
theorem completion_error {cfg : WireConfig} {F : Frame} {e : BlockError}
    (h : completion cfg F = .error e) : e = .unrecognizedFrame F := by
  cases hd : decodeSample cfg F with
  | accepted S => cases (completion_of_accepted hd).symm.trans h
  | rejected r => exact (Response.error.inj ((completion_of_rejected hd).symm.trans h)).symm

/-- A FEED that answers an error stored the 20th byte and reports the frame it completed. -/
theorem exec_feed_error {s t : State} {b : Byte} {e : BlockError}
    (h : exec (.feed b) s = .next t) (he : t.resp = some (.error e)) :
    s.phase = .collecting ∧ s.cursor.val = 19 ∧ ∃ F, (s.buf.write 19 b).frame = some F
      ∧ e = .unrecognizedFrame F ∧ t = { s with
        buf := s.buf.write 19 b, cursor := 0, phase := .seekHeading,
        resp := some (completion s.cfg F) } := by
  by_cases hlast : s.phase = .collecting ∧ s.cursor.val = 19
  · obtain ⟨hp, hc⟩ := hlast
    obtain ⟨F, hF, rfl⟩ := exec_feed_lastByte_next h hp hc
    exact ⟨hp, hc, F, hF, completion_error (Option.some.inj he), rfl⟩
  · cases (exec_feed_noFrame h hlast).symm.trans he

/-- Settles O54, by cases on what the step takes: an input that is rejected and an instruction other than
FEED change the response alone, an idle step and a reset answer nothing, and `exec_feed_error` says what
FEED does. -/
theorem errorsArePrecise : Obligations.ErrorsArePrecise := by
  intro s t e h he
  obtain ⟨-, rfl⟩ | ⟨x, rest, hx, ⟨e', rfl⟩ | ⟨-, rfl⟩ | ⟨i, htake, hi⟩⟩ := step_next_cases h
  case inl => cases he
  case inr.inl => exact .inl ⟨rfl, rfl, rfl, rfl⟩
  case inr.inr.inl => cases he
  case inr.inr.inr =>
    by_cases hfeed : ∃ b, i = .feed b
    · obtain ⟨b, rfl⟩ := hfeed
      obtain ⟨w, d, rfl, hd⟩ := State.request_of_take_run_feed htake
      obtain ⟨hp, hc, F, hF, rfl, rfl⟩ := exec_feed_error hi he
      exact .inr ⟨w, d, rest, b, F, hx, hd, hp, hc, rfl, hF, rfl, rfl, rfl, rfl⟩
    · obtain ⟨r, rfl, -⟩ := exec_next_of_not_feed (fun b hb => hfeed ⟨b, hb⟩) hi
      exact .inl ⟨rfl, rfl, rfl, rfl⟩

end Sys2Proof.Machine
end

