-- ==== Sys2Proof/Proofs/Encoding.lean ====
section
/-! PROOF. The encodings (30_encoding.md R60 to R74): requests, frames and command rows decode to
themselves, and what is accepted has one spelling. -/

namespace Sys2Proof

/-! ### The rows of the request table (R66) -/

/-- Among elements with distinct keys, looking one up by its key finds it. -/
theorem find?_key_of_nodup {α β : Type} [DecidableEq β] {key : α → β} {l : List α} {a : α}
    (hl : (l.map key).Nodup) (ha : a ∈ l) : l.find? (fun x => key x == key a) = some a := by
  induction l with
  | nil => cases ha
  | cons b rest ih =>
    obtain ⟨hb, hrest⟩ := List.nodup_cons.mp hl
    obtain rfl | ha := List.mem_cons.mp ha
    · exact List.find?_cons_of_pos (by simp)
    · have hne : key b ≠ key a := fun h => hb (h ▸ List.mem_map_of_mem ha)
      rw [List.find?_cons_of_neg (by simpa using hne)]
      exact ih hrest ha

theorem requestRows_ops_nodup : (requestRows.map RequestRow.op).Nodup := by decide

/-- A word with a row's op and none of its reserved bits decodes through that row. -/
theorem decodeRequest_of_row {row : RequestRow} {w : ReqWord} (d : DecIn) (hrow : row ∈ requestRows)
    (hop : reqOp w = row.op) (hres : w &&& row.reserved = 0#32) :
    decodeRequest w d = .accepted (row.build w d) := by
  rw [decodeRequest, hop, find?_key_of_nodup requestRows_ops_nodup hrow]
  exact if_pos hres

/-- The row at a position of the table is one of its rows. -/
theorem mem_requestRows_of_getElem? {row : RequestRow} (k : Nat) (h : requestRows[k]? = some row) :
    row ∈ requestRows := List.mem_of_getElem? h

/-! ### Request words decode to their operands -/

section Words

variable {op : Byte} (k : Nat)

theorem decodeRequest_wordOfByte {f : Byte → Instr}
    (h : requestRows[k]? = some ⟨op, 0x00FFFF00#32, fun w _ => f (reqByte0 w)⟩) (b : Byte)
    (d : DecIn) : decodeRequest (wordOfByte op b) d = .accepted (f b) := by
  obtain ⟨hop, hb, hres⟩ := wordOfByte_fields op b
  simp only [decodeRequest_of_row d (mem_requestRows_of_getElem? k h) hop hres, hb]

theorem decodeRequest_wordOfBytes {f : Byte → Byte → Instr}
    (h : requestRows[k]? = some ⟨op, 0x00FF0000#32, fun w _ => f (reqByte0 w) (reqByte1 w)⟩)
    (b0 b1 : Byte) (d : DecIn) : decodeRequest (wordOfBytes op b0 b1) d = .accepted (f b0 b1) := by
  obtain ⟨hop, hb0, hb1, hres⟩ := wordOfBytes_fields op b0 b1
  simp only [decodeRequest_of_row d (mem_requestRows_of_getElem? k h) hop hres, hb0, hb1]

theorem decodeRequest_wordOfHalf {f : HalfWord → Instr}
    (h : requestRows[k]? = some ⟨op, 0x00FF0000#32, fun w _ => f (reqHalf w)⟩) (v : HalfWord)
    (d : DecIn) : decodeRequest (wordOfHalf op v) d = .accepted (f v) := by
  obtain ⟨hop, hv, hres⟩ := wordOfHalf_fields op v
  simp only [decodeRequest_of_row d (mem_requestRows_of_getElem? k h) hop hres, hv]

/-- A request without operands in its word; DECODE takes its frame from DEC_IN. -/
theorem decodeRequest_wordOfArg_zero {f : DecIn → Instr}
    (h : requestRows[k]? = some ⟨op, 0x00FFFFFF#32, fun _ d => f d⟩) (d : DecIn) :
    decodeRequest (wordOfArg op 0) d = .accepted (f d) := by
  obtain ⟨hop, -, hres⟩ := wordOfArg_fields op 0
  exact decodeRequest_of_row d (mem_requestRows_of_getElem? k h) hop hres

/-- A request whose operand is the whole arg, with no reserved bit. -/
theorem decodeRequest_wordOfArg {f : BitVec 24 → Instr}
    (h : requestRows[k]? = some ⟨op, 0x00000000#32, fun w _ => f (reqArg w)⟩) (v : BitVec 24)
    (d : DecIn) : decodeRequest (wordOfArg op v) d = .accepted (f v) := by
  obtain ⟨hop, hv, -⟩ := wordOfArg_fields op v
  simp only [decodeRequest_of_row d (mem_requestRows_of_getElem? k h) hop BitVec.and_zero, hv]

end Words

/-- Settles O2: a case for each request, by the form of its word and its row of R66's table. -/
theorem requestsDecodeToThemselves : Obligations.RequestsDecodeToThemselves := by
  intro cfg i hi
  cases i with
  | feed b => exact ⟨_, _, rfl, decodeRequest_wordOfByte 0 rfl b 0⟩
  | decode F =>
    exact ⟨_, _, rfl, (decodeRequest_wordOfArg_zero 1 rfl _).trans (by rw [Frame.ofDecIn_toDecIn])⟩
  | encSave => exact ⟨_, _, rfl, decodeRequest_wordOfArg_zero 2 rfl 0⟩
  | encRestore => exact ⟨_, _, rfl, decodeRequest_wordOfArg_zero 3 rfl 0⟩
  | encCalAcc => exact ⟨_, _, rfl, decodeRequest_wordOfArg_zero 4 rfl 0⟩
  | encCalMag => exact ⟨_, _, rfl, decodeRequest_wordOfArg_zero 5 rfl 0⟩
  | encCalQuit => exact ⟨_, _, rfl, decodeRequest_wordOfArg_zero 6 rfl 0⟩
  | encSetRate rate => exact ⟨_, _, rfl, decodeRequest_wordOfByte 7 rfl rate 0⟩
  | encReadReg reg => exact ⟨_, _, rfl, decodeRequest_wordOfByte 8 rfl reg 0⟩
  | encTimeYm yy mon => exact ⟨_, _, rfl, decodeRequest_wordOfBytes 9 rfl yy mon 0⟩
  | encTimeDh day hour => exact ⟨_, _, rfl, decodeRequest_wordOfBytes 10 rfl day hour 0⟩
  | encTimeMs min sec => exact ⟨_, _, rfl, decodeRequest_wordOfBytes 11 rfl min sec 0⟩
  | encTimeMsec ms => exact ⟨_, _, rfl, decodeRequest_wordOfHalf 12 rfl ms 0⟩
  | encFwUpdate => exact ⟨_, _, rfl, decodeRequest_wordOfArg_zero 13 rfl 0⟩
  | lutBatt cv => exact ⟨_, _, rfl, decodeRequest_wordOfHalf 14 rfl cv 0⟩
  | lutRateHz rate => exact ⟨_, _, rfl, decodeRequest_wordOfByte 15 rfl rate 0⟩
  | lutHzRate mhz => exact ⟨_, _, rfl, decodeRequest_wordOfArg 16 rfl mhz 0⟩
  | _ => cases hi

/-! ### An accepted request word is its request's own (R66) -/

/-- A field of a word all of whose bits a mask covers is zero when the mask finds nothing. -/
theorem extract_eq_zero_of_and {w mask : ReqWord} {lo len : Nat}
    (hcover : ∀ j < len, mask.getLsbD (lo + j) = true) (h : w &&& mask = 0#32) :
    w.extractLsb' lo len = 0#len := by
  apply BitVec.eq_of_getLsbD_eq
  intro j hj
  have hbit : (w &&& mask).getLsbD (lo + j) = false := by rw [h]; simp
  rw [BitVec.getLsbD_and, hcover j hj, Bool.and_true] at hbit
  simp [BitVec.getLsbD_extractLsb', hbit]

/-- Neighbouring fields of a word, put side by side, are one field. -/
theorem extract_append_extract (w : ReqWord) {lo mid len len' : Nat} (h : mid = lo + len) :
    w.extractLsb' mid len' ++ w.extractLsb' lo len = w.extractLsb' lo (len' + len) :=
  BitVec.extractLsb'_append_extractLsb'_eq_extractLsb' h

/-- A word is its op above its arg. -/
theorem wordOfArg_reqArg (w : ReqWord) : wordOfArg (reqOp w) (reqArg w) = w :=
  (extract_append_extract w rfl).trans BitVec.extractLsb'_eq_self

theorem wordOfArg_zero_of_reserved {w : ReqWord} (h : w &&& 0x00FFFFFF#32 = 0#32) :
    wordOfArg (reqOp w) 0 = w := by
  have harg : reqArg w = 0 := extract_eq_zero_of_and (by decide) h
  rw [← harg, wordOfArg_reqArg]

theorem wordOfHalf_of_reserved {w : ReqWord} (h : w &&& 0x00FF0000#32 = 0#32) :
    wordOfHalf (reqOp w) (reqHalf w) = w := by
  have hzero : w.extractLsb' 16 8 = 0#8 := extract_eq_zero_of_and (by decide) h
  rw [wordOfHalf, reqOp, reqHalf, ← hzero, extract_append_extract w (show 24 = 16 + 8 from rfl),
    extract_append_extract w (show 16 = 0 + 16 from rfl)]
  exact BitVec.extractLsb'_eq_self

theorem wordOfBytes_of_reserved {w : ReqWord} (h : w &&& 0x00FF0000#32 = 0#32) :
    wordOfBytes (reqOp w) (reqByte0 w) (reqByte1 w) = w := by
  have hzero : w.extractLsb' 16 8 = 0#8 := extract_eq_zero_of_and (by decide) h
  rw [wordOfBytes, reqOp, reqByte0, reqByte1, ← hzero,
    extract_append_extract w (show 24 = 16 + 8 from rfl),
    extract_append_extract w (show 16 = 8 + 8 from rfl),
    extract_append_extract w (show 8 = 0 + 8 from rfl)]
  exact BitVec.extractLsb'_eq_self

theorem wordOfByte_of_reserved {w : ReqWord} (h : w &&& 0x00FFFF00#32 = 0#32) :
    wordOfByte (reqOp w) (reqByte0 w) = w := by
  have hzero : w.extractLsb' 8 16 = 0#16 := extract_eq_zero_of_and (by decide) h
  rw [wordOfByte, reqOp, reqByte0, ← hzero, extract_append_extract w (show 24 = 8 + 16 from rfl),
    extract_append_extract w (show 8 = 0 + 8 from rfl)]
  exact BitVec.extractLsb'_eq_self

/-- A row's request, made from a word that has the row's op and none of its reserved bits, is encoded
in that word; DECODE, which alone reads DEC_IN, in that DEC_IN value too. -/
def RequestRow.Respells (row : RequestRow) : Prop :=
  ∀ (cfg : WireConfig) (w : ReqWord) (d : DecIn), reqOp w = row.op → w &&& row.reserved = 0#32 →
    ∃ d', encode cfg (row.build w d) = some (.request w d')
      ∧ ∀ F, row.build w d = .decode F → d' = d

namespace RequestRow

variable {op : Byte}

theorem respells_byte {f : Byte → Instr}
    (henc : ∀ cfg b, encode cfg (f b) = some (.request (wordOfByte op b) 0))
    (hf : ∀ b F, f b ≠ .decode F) :
    Respells ⟨op, 0x00FFFF00#32, fun w _ => f (reqByte0 w)⟩ := by
  rintro cfg w d rfl hres
  exact ⟨0, by rw [henc, wordOfByte_of_reserved hres], fun F h => absurd h (hf _ F)⟩

theorem respells_bytes {f : Byte → Byte → Instr}
    (henc : ∀ cfg b0 b1, encode cfg (f b0 b1) = some (.request (wordOfBytes op b0 b1) 0))
    (hf : ∀ b0 b1 F, f b0 b1 ≠ .decode F) :
    Respells ⟨op, 0x00FF0000#32, fun w _ => f (reqByte0 w) (reqByte1 w)⟩ := by
  rintro cfg w d rfl hres
  exact ⟨0, by rw [henc, wordOfBytes_of_reserved hres], fun F h => absurd h (hf _ _ F)⟩

theorem respells_half {f : HalfWord → Instr}
    (henc : ∀ cfg v, encode cfg (f v) = some (.request (wordOfHalf op v) 0))
    (hf : ∀ v F, f v ≠ .decode F) :
    Respells ⟨op, 0x00FF0000#32, fun w _ => f (reqHalf w)⟩ := by
  rintro cfg w d rfl hres
  exact ⟨0, by rw [henc, wordOfHalf_of_reserved hres], fun F h => absurd h (hf _ F)⟩

theorem respells_arg {f : BitVec 24 → Instr}
    (henc : ∀ cfg v, encode cfg (f v) = some (.request (wordOfArg op v) 0))
    (hf : ∀ v F, f v ≠ .decode F) :
    Respells ⟨op, 0x00000000#32, fun w _ => f (reqArg w)⟩ := by
  rintro cfg w d rfl -
  exact ⟨0, by rw [henc, wordOfArg_reqArg], fun F h => absurd h (hf _ F)⟩

theorem respells_bare {i : Instr}
    (henc : ∀ cfg, encode cfg i = some (.request (wordOfArg op 0) 0)) (hi : ∀ F, i ≠ .decode F) :
    Respells ⟨op, 0x00FFFFFF#32, fun _ _ => i⟩ := by
  rintro cfg w d rfl hres
  exact ⟨0, by rw [henc, wordOfArg_zero_of_reserved hres], fun F h => absurd h (hi F)⟩

theorem respells_decode :
    Respells ⟨0x02#8, 0x00FFFFFF#32, fun _ d => .decode (Frame.ofDecIn d)⟩ := by
  intro cfg w d (hop : reqOp w = 0x02#8) hres
  refine ⟨d, ?_, fun _ _ => rfl⟩
  rw [encode, Frame.toDecIn_ofDecIn, ← hop, wordOfArg_zero_of_reserved hres]

end RequestRow

open RequestRow in
theorem requestRows_respell : ∀ row ∈ requestRows, row.Respells := by
  simp only [requestRows, List.cons_append, List.nil_append, List.forall_mem_cons]
  exact ⟨respells_byte (fun _ _ => rfl) nofun, respells_decode, respells_bare (fun _ => rfl) nofun,
    respells_bare (fun _ => rfl) nofun, respells_bare (fun _ => rfl) nofun,
    respells_bare (fun _ => rfl) nofun, respells_bare (fun _ => rfl) nofun,
    respells_byte (fun _ _ => rfl) nofun, respells_byte (fun _ _ => rfl) nofun,
    respells_bytes (fun _ _ _ => rfl) nofun, respells_bytes (fun _ _ _ => rfl) nofun,
    respells_bytes (fun _ _ _ => rfl) nofun, respells_half (fun _ _ => rfl) nofun,
    respells_bare (fun _ => rfl) nofun, respells_half (fun _ _ => rfl) nofun,
    respells_byte (fun _ _ => rfl) nofun, respells_arg (fun _ _ => rfl) nofun, nofun⟩

/-- Settles O5: the row that accepted the word spells its request in that word. -/
theorem acceptedRequestHasOneSpelling : Obligations.AcceptedRequestHasOneSpelling := by
  intro cfg w d i h
  obtain ⟨row, hrow, hop, hres, hd⟩ | ⟨r, hr⟩ := Machine.decodeRequest_cases w d
  · obtain rfl : row.build w d = i := Verdict.accepted.inj (hd.symm.trans h)
    obtain ⟨d', henc, hdecode⟩ := requestRows_respell row hrow cfg w d hop hres
    exact ⟨⟨d', henc⟩, fun F hF => hdecode F hF ▸ henc⟩
  · cases hr.symm.trans h

/-! ### Frames (R61 to R63, R68) -/

theorem WireConfig.regHiPasses_iff (cfg : WireConfig) (b : Byte) :
    cfg.regHiPasses b = true ↔ (cfg.checkRegHi = true → b = regHiExpected) := by
  cases h : cfg.checkRegHi <;> simp [WireConfig.regHiPasses, h]

theorem decodeFrame_of_classify {cfg : WireConfig} {F : Frame} {k : FrameKind}
    (h : classify cfg F = .accepted k) : decodeFrame cfg F = .accepted (frameInstr F k) := by
  rw [decodeFrame, h]

/-- Classification of R63's layout. -/
theorem classify_echoFrame {cfg : WireConfig} (reg : Byte) {e : EchoFields}
    (h : cfg.regHiPasses e.regHi = true) :
    classify cfg (echoFrame reg e) = .accepted (echoKind cfg reg) :=
  classify_echo cfg (echoFrame reg e) rfl rfl ((cfg.regHiPasses_iff e.regHi).mp h)

/-- Classification of R63's DateTime layout. -/
theorem classify_dateTimeFrame {cfg : WireConfig} (reg : Byte) {d : DateTimeFields}
    (h : cfg.regHiPasses d.regHi = true) :
    classify cfg (dateTimeFrame reg d) = .accepted (echoKind cfg reg) :=
  classify_echo cfg (dateTimeFrame reg d) rfl rfl ((cfg.regHiPasses_iff d.regHi).mp h)

/-- A register-echo frame decodes to the row of the kind that its register selects, with its fields. -/
theorem decodeFrame_echoFrame {cfg : WireConfig} {reg : Byte} {e : EchoFields} {k : FrameKind}
    {f : EchoFields → Instr} (hpass : cfg.regHiPasses e.regHi = true) (hk : echoKind cfg reg = k)
    (hf : frameInstr (echoFrame reg e) k = f (echoFrame reg e).echoFields) :
    decodeFrame cfg (echoFrame reg e) = .accepted (f e) := by
  rw [decodeFrame_of_classify (classify_echoFrame reg hpass), hk, hf, echoFrame_fields]

/-- Settles O3, kind by kind: the register number of a kind selects it, and its fields are read back
from where the layout puts them. -/
theorem framesDecodeToThemselves : Obligations.FramesDecodeToThemselves := by
  intro cfg i hw hi hformat
  obtain ⟨hmag, hquat, htemp, hbatt, hversion, hdateTime⟩ :=
    echoKind_named (WireConfig.wf_regNumbers hw)
  cases i with
  | frameStreamed p =>
    refine ⟨_, rfl, (decodeFrame_of_classify (classify_streamed cfg _ rfl rfl)).trans ?_⟩
    rw [frameInstr, streamFrame_fields]
  | frameMag e => exact ⟨_, rfl, decodeFrame_echoFrame hi hmag rfl⟩
  | frameQuat e => exact ⟨_, rfl, decodeFrame_echoFrame hi hquat rfl⟩
  | frameTemp e => exact ⟨_, rfl, decodeFrame_echoFrame hi htemp rfl⟩
  | frameBatt e => exact ⟨_, rfl, decodeFrame_echoFrame hi hbatt rfl⟩
  | frameVersion e => exact ⟨_, rfl, decodeFrame_echoFrame hi hversion rfl⟩
  | frameDateTime d =>
    refine ⟨_, rfl, (decodeFrame_of_classify (classify_dateTimeFrame _ hi)).trans ?_⟩
    rw [hdateTime, frameInstr, dateTimeFrame_fields]
  | frameBurst reg e =>
    simp only [Instr.wf, Bool.and_eq_true, Bool.not_eq_true', List.contains_eq_mem,
      decide_eq_false_iff_not] at hi
    obtain ⟨hpass, hreg⟩ := hi
    exact ⟨_, rfl, decodeFrame_echoFrame hpass (echoKind_burst hreg) rfl⟩
  | _ => cases hformat <;> contradiction

/-- A register-echo frame is R63's layout of its own register byte and fields. -/
theorem echoFrame_echoFields {F : Frame} (h0 : F[0] = heading) (h1 : F[1] = flagReg) :
    echoFrame F[2] F.echoFields = F := by
  apply Vector.ext
  intro i hi
  interval_cases i <;> simp [echoFrame, Frame.echoFields, h0, h1]

/-- A date/time frame is R63's DateTime layout of its own register byte and fields. -/
theorem dateTimeFrame_dateTimeFields {F : Frame} (h0 : F[0] = heading) (h1 : F[1] = flagReg) :
    dateTimeFrame F[2] F.dateTimeFields = F := by
  apply Vector.ext
  intro i hi
  interval_cases i <;> simp [dateTimeFrame, Frame.dateTimeFields, h0, h1]

/-- The row that a register-echo frame's register byte selects is encoded in that frame. -/
theorem encode_frameInstr_echo (cfg : WireConfig) {F : Frame} (h0 : F[0] = heading)
    (h1 : F[1] = flagReg) :
    encode cfg (frameInstr F (echoKind cfg F[2])) = some (.frame F) := by
  have hecho := echoFrame_echoFields h0 h1
  have hdateTime := dateTimeFrame_dateTimeFields h0 h1
  unfold echoKind
  split_ifs with hmag hquat htemp hbatt hversion hdate
  · rw [frameInstr, encode, ← hmag, hecho]
  · rw [frameInstr, encode, ← hquat, hecho]
  · rw [frameInstr, encode, ← htemp, hecho]
  · rw [frameInstr, encode, ← hbatt, hecho]
  · rw [frameInstr, encode, ← hversion, hecho]
  · rw [frameInstr, encode, ← hdate, hdateTime]
  · rw [frameInstr, encode, hecho]

/-- Settles O6: a frame is the layout of its own fields, streamed or under its register byte. -/
theorem acceptedFrameHasOneSpelling : Obligations.AcceptedFrameHasOneSpelling := by
  intro cfg F i h
  cases hk : classify cfg F with
  | rejected r => simp [decodeFrame, hk] at h
  | accepted k =>
    obtain rfl : frameInstr F k = i := Verdict.accepted.inj ((decodeFrame_of_classify hk).symm.trans h)
    obtain ⟨h0, ⟨h1, rfl⟩ | ⟨h1, -, rfl⟩⟩ := classify_accepted hk
    · rw [frameInstr, encode, Machine.streamFrame_streamFields h0 h1]
    · exact encode_frameInstr_echo cfg h0 h1

/-! ### Command rows (R64, R69, R74) -/

/-- The command codes but FWUPD_CODE, in the reverse of the order in which R69's rows are tried:
distinct codes then say of each that it is none of those tried before it. -/
def WireConfig.fixedCodes (cfg : WireConfig) : List Byte :=
  [cfg.cmdTimeMsec, cfg.cmdTimeMs, cfg.cmdTimeDh, cfg.cmdTimeYm, cfg.cmdRead, cmdRate, cfg.cmdCal,
    cfg.cmdSave]

theorem WireConfig.commandCodes_eq (cfg : WireConfig) :
    cfg.commandCodes = cfg.fixedCodes.reverse ++ cfg.fwupdCode.toList := rfl

/-- What it is for the command rows to be apart. -/
theorem WireConfig.apart_of_commandsApart {cfg : WireConfig} (h : cfg.commandsApart = true) :
    cfg.fixedCodes.Nodup ∧ (∀ c, cfg.fwupdCode = some c → c ∉ cfg.fixedCodes)
      ∧ cfg.argRestore ≠ cfg.argSave ∧ [cfg.argCalQuit, cfg.argCalMag, cfg.argCalAcc].Nodup := by
  simp only [WireConfig.commandsApart, Bool.and_eq_true, decide_eq_true_eq] at h
  obtain ⟨⟨hcodes, hsave⟩, hcal⟩ := h
  rw [WireConfig.commandCodes_eq, List.nodup_append, List.nodup_reverse] at hcodes
  obtain ⟨hfixed, -, hfw⟩ := hcodes
  exact ⟨hfixed,
    fun c hc hmem => hfw c (List.mem_reverse.mpr hmem) c (by simp [hc]) rfl, hsave.symm,
    List.nodup_reverse.mp hcal⟩

theorem command_roundtrip {cfg : WireConfig} {C : CommandBytes} (b : Builder)
    (henc : encode cfg b.instr = some (.command C)) (hmatch : matchCommand cfg C = .accepted b) :
    ∃ C, encode cfg b.instr = some (.command C) ∧ matchForm cfg (.command C) = .accepted b.instr :=
  ⟨C, henc, matchForm_command hmatch⟩

/-- Settles O4, row by row: no row tried before an instruction's own has its code and arguments. -/
theorem commandsDecodeToThemselves : Obligations.CommandsDecodeToThemselves := by
  intro cfg i hapart hi hformat
  obtain ⟨hcodes, hfw, hsave, hcal⟩ := WireConfig.apart_of_commandsApart hapart
  simp only [WireConfig.fixedCodes, List.nodup_cons, List.mem_cons, List.not_mem_nil, or_false,
    not_or] at hcodes hcal hfw
  cases i with
  | cmdSave => exact command_roundtrip .save rfl (by simp [matchCommand, commandBytes])
  | cmdRestore => exact command_roundtrip .restore rfl (by simp [matchCommand, commandBytes, hsave])
  | cmdCalAcc => exact command_roundtrip .calAcc rfl (by simp [matchCommand, commandBytes, hcodes])
  | cmdCalMag =>
    exact command_roundtrip .calMag rfl (by simp [matchCommand, commandBytes, hcodes, hcal])
  | cmdCalQuit =>
    exact command_roundtrip .calQuit rfl (by simp [matchCommand, commandBytes, hcodes, hcal])
  | cmdSetRate rate =>
    exact command_roundtrip (.setRate rate) rfl (by simp [matchCommand, commandBytes, hcodes])
  | cmdReadReg reg =>
    exact command_roundtrip (.readReg reg) rfl (by simp [matchCommand, commandBytes, hcodes])
  | cmdTimeYm yy mon =>
    exact command_roundtrip (.timeYm yy mon) rfl (by simp [matchCommand, commandBytes, hcodes])
  | cmdTimeDh day hour =>
    exact command_roundtrip (.timeDh day hour) rfl (by simp [matchCommand, commandBytes, hcodes])
  | cmdTimeMs min sec =>
    exact command_roundtrip (.timeMs min sec) rfl (by simp [matchCommand, commandBytes, hcodes])
  | cmdTimeMsec ms =>
    exact command_roundtrip (.timeMsec ms) rfl (by simp [matchCommand, commandBytes, hcodes])
  | cmdFwUpdate =>
    obtain ⟨c, hc⟩ := Option.isSome_iff_exists.mp hi
    have hne := hfw c hc
    exact command_roundtrip (C := commandBytes c 0#8 0#8) .fwUpdate
      (by simp [encode, Builder.instr, hc]) (by simp [matchCommand, commandBytes, hne, hc])
  | _ => cases hformat

/-! ### Little-endian words (R11, R42) -/

theorem Frame.le16_toNat (F : Frame) (o : Nat) (h : o + 1 < 20) :
    (F.le16 o h).toNat = F[o].toNat + 256 * F[o + 1].toNat := by
  have hlo : F[o].toNat < 2 ^ 8 := F[o].isLt
  rw [Frame.le16, BitVec.toNat_append, ← Nat.shiftLeft_add_eq_or_of_lt hlo, Nat.shiftLeft_eq]
  omega

/-- Settles O7: the unsigned reading by the bytes appended, the signed one by two's complement. -/
theorem halfWordsAreLittleEndian : Obligations.HalfWordsAreLittleEndian := by
  intro F o h
  refine ⟨Frame.le16_toNat F o h, ?_⟩
  rw [Machine.s16, Machine.u16, BitVec.toInt_eq_toNat_cond]
  split_ifs <;> omega

/-- Settles O1: each request word is written in the form of its row, and the frame and the command are
small closed facts. -/
theorem sampleWordsDecode : Obligations.SampleWordsDecode :=
  ⟨decodeRequest_wordOfByte 0 rfl 0x55#8, decodeRequest_wordOfBytes 9 rfl 24#8 11#8,
    decodeRequest_wordOfHalf 12 rfl 999#16, decodeRequest_wordOfArg 16 rfl 100000#24, by decide,
    by decide⟩

end Sys2Proof
end

