-- ==== Sys2Proof/Proofs/WellFormed.lean ====
section
/-! PROOF. What a well-formed WireConfig is (00_scope.md R8) and what BATT_PCT of one is on every voltage
(43_scale_table.md R193). -/

namespace Sys2Proof

open Machine

/-! ### The checks as propositions -/

theorem nonDecreasing_iff_pairwise (l : List Nat) :
    nonDecreasing l = true ↔ l.Pairwise (· ≤ ·) := by
  rw [← List.isChain_iff_pairwise]
  induction l with
  | nil => simp [nonDecreasing]
  | cons a rest ih =>
    cases rest with
    | nil => simp [nonDecreasing]
    | cons b rest => simp [nonDecreasing, ih]

theorem WireConfig.battNonDecreasing_iff (cfg : WireConfig) :
    cfg.battNonDecreasing = true
      ↔ ∀ (i j : Nat) (hi : i < 71) (hj : j < 71), i ≤ j → cfg.battPct[i] ≤ cfg.battPct[j] := by
  rw [WireConfig.battNonDecreasing, nonDecreasing_iff_pairwise, List.pairwise_iff_getElem]
  simp only [Vector.length_toList, Vector.getElem_toList]
  refine ⟨fun h i j hi hj hij => ?_, fun h i j hi hj hij => h i j hi hj hij.le⟩
  obtain hlt | rfl := Nat.lt_or_eq_of_le hij
  · exact h i j hi hj hlt
  · exact le_rfl

theorem WireConfig.battInRange_iff (cfg : WireConfig) :
    cfg.battInRange = true ↔ ∀ (i : Nat) (hi : i < 71), cfg.battPct[i] ≤ 100 := by
  simp [WireConfig.battInRange]

theorem WireConfig.battAnchors_iff (cfg : WireConfig) :
    cfg.battAnchors = true ↔ cfg.battPct[70] = 100 ∧ cfg.battPct[0] = 0 := by
  simp [WireConfig.battAnchors, and_comm]

theorem WireConfig.regsDistinct_iff (cfg : WireConfig) :
    cfg.regsDistinct = true ↔ [cfg.regMag, cfg.regQuat, cfg.regTemp, cfg.regBatt, cfg.regVersion,
      cfg.regDateTime].Nodup := decide_eq_true_iff

/-! ### BATT_PCT on every voltage -/

/-- BATT_PCT reads the entry of the nearest of the 71 voltages. -/
theorem battPercent_eq_clamp (cfg : WireConfig) (cv : Nat) :
    battPercent cfg cv = cfg.battPct[min (cv - 330) 70] := by
  unfold battPercent
  split_ifs with hlow hhigh
  · simp only [show min (cv - 330) 70 = 0 by omega]
  · simp only [show min (cv - 330) 70 = cv - 330 by omega]
  · simp only [show min (cv - 330) 70 = 70 by omega]

theorem battPercent_full_iff (cfg : WireConfig) :
    (∀ cv, 400 ≤ cv → battPercent cfg cv = 100) ↔ cfg.battPct[70] = 100 :=
  ⟨fun h => (battPercent_entry cfg 70 (by decide)).symm.trans (h 400 le_rfl),
    fun h cv hcv => ((battPercent_ends cfg cv).2 hcv).trans h⟩

theorem battPercent_empty_iff (cfg : WireConfig) :
    (∀ cv, cv ≤ 330 → battPercent cfg cv = 0) ↔ cfg.battPct[0] = 0 :=
  ⟨fun h => (battPercent_entry cfg 0 (by decide)).symm.trans (h 330 le_rfl),
    fun h cv hcv => ((battPercent_ends cfg cv).1 hcv).trans h⟩

theorem battPercent_mono_iff (cfg : WireConfig) :
    (∀ c d, c ≤ d → battPercent cfg c ≤ battPercent cfg d) ↔ cfg.battNonDecreasing = true := by
  rw [WireConfig.battNonDecreasing_iff]
  constructor
  · intro h i j hi hj hij
    rw [← battPercent_entry cfg i hi, ← battPercent_entry cfg j hj]
    exact h _ _ (by omega)
  · intro h c d hcd
    rw [battPercent_eq_clamp, battPercent_eq_clamp]
    exact h _ _ _ _ (by omega)

theorem battPercent_le_iff (cfg : WireConfig) :
    (∀ cv, battPercent cfg cv ≤ 100) ↔ cfg.battInRange = true := by
  rw [WireConfig.battInRange_iff]
  constructor
  · intro h i hi
    rw [← battPercent_entry cfg i hi]
    exact h _
  · intro h cv
    rw [battPercent_eq_clamp]
    exact h _ _

/-- Settles O13: check by check, BATT_PCT's on the table and on every voltage alike. -/
theorem wellFormedConfigMeetsEveryCondition : Obligations.WellFormedConfigMeetsEveryCondition := by
  intro cfg
  rw [battPercent_full_iff, battPercent_empty_iff, battPercent_mono_iff, battPercent_le_iff]
  simp only [WireConfig.wf, WireConfig.regsDistinct_iff, WireConfig.ratesTen,
    WireConfig.rateCodesDistinct, WireConfig.rateFreqsDistinct, WireConfig.rateHas100Hz,
    WireConfig.rateLowest, WireConfig.rateHighest, WireConfig.battAnchors_iff, Bool.and_eq_true,
    decide_eq_true_eq, beq_iff_eq, List.any_eq_true, List.all_eq_true, List.contains_iff_mem,
    and_assoc]

/-! ### What a well-formed configuration gives the lookups -/

/-- R8's conditions on RATE_TABLE that the lookups rest on. -/
structure RateTableOk (l : List (Byte × Nat)) : Prop where
  nonempty : l ≠ []
  codes : (l.map Prod.fst).Nodup
  freqs : (l.map Prod.snd).Nodup
  highest : ∀ e ∈ l, e.2 ≤ 200000

theorem WireConfig.rateTableOk {cfg : WireConfig} (h : cfg.wf = true) : RateTableOk cfg.rateTable := by
  obtain ⟨-, hten, hcodes, hfreqs, -, -, ⟨-, hhighest⟩, -⟩ :=
    (wellFormedConfigMeetsEveryCondition cfg).mp h
  exact ⟨fun hnil => by simp [hnil] at hten, hcodes, hfreqs, hhighest⟩

end Sys2Proof
end

