-- ==== Sys2Proof/Proofs/EveryInstruction.lean ====
section
/-! PROOF. How an instruction can end (30_encoding.md R67, 60_exceptions.md R200 to R204), said once, and
the rules over every instruction that follow from it. -/

namespace Sys2Proof.Machine

open Sys2Proof

/-! ### How an instruction other than FEED can end -/

/-- The ways in which an instruction other than FEED can end, with what brings each error and each
refusal about. -/
inductive Ending (i : Instr) (s : State) : Result → Prop
  | sample (S : Sample) : Ending i s (.next (s.respond (.ok (.sample S))))
  | command (code lo hi : Byte) :
    Ending i s (.next (s.respond (.ok (.command (commandBytes code lo hi)))))
  | value (v : Nat) : Ending i s (.next (s.respond (.ok (.value v))))
  | unrecognizedFrame (F : Frame) (h : i = .decode F ∨ encode s.cfg i = some (.frame F)) :
    Ending i s (.next (s.respond (.error (.unrecognizedFrame F))))
  | badArgument (a : Byte) (h : i = .encSetRate a ∨ i = .lutRateHz a ∨ i = .cmdSetRate a) :
    Ending i s (.next (s.respond (.error (.badArgument a))))
  | fwUpdateUnbound (h : i = .encFwUpdate ∨ i = .cmdFwUpdate) (hc : s.cfg.fwupdCode = none) :
    Ending i s (.refused .fwUpdateUnbound)
  | emptyRateTable (h : s.cfg.rateTable = []) : Ending i s (.refused .illFormedConfig)

section

variable {i : Instr} {s : State}

theorem Ending.echo {F : Frame} (h : encode s.cfg i = some (.frame F)) (b : Byte) (S : Sample) :
    Ending i s (s.echo b F S) := by
  obtain ⟨-, he⟩ | ⟨-, he⟩ := s.echo_cases b F S <;> rw [he]
  · exact .sample S
  · exact .unrecognizedFrame F (.inr h)

theorem Ending.buildRate {rate : Byte} (h : i = .encSetRate rate ∨ i = .cmdSetRate rate) :
    Ending i s (s.buildRate rate) := by
  obtain ⟨-, hb⟩ | ⟨-, hb⟩ := s.buildRate_cases rate <;> rw [hb]
  · exact .command cmdRate rate 0#8
  · exact .badArgument rate (h.imp_right .inr)

theorem Ending.buildFwUpdate (h : i = .encFwUpdate ∨ i = .cmdFwUpdate) :
    Ending i s s.buildFwUpdate := by
  obtain ⟨hc, hb⟩ | ⟨c, -, hb⟩ := s.buildFwUpdate_cases <;> rw [hb]
  · exact .fwUpdateUnbound h hc
  · exact .command c 0#8 0#8

theorem Ending.decode (F : Frame) : Ending (.decode F) s (execDecode F s) := by
  unfold execDecode
  cases decodeSample s.cfg F with
  | accepted S => exact .sample S
  | rejected r => exact .unrecognizedFrame F (.inl rfl)

theorem Ending.lutRateHz (rate : Byte) : Ending (.lutRateHz rate) s (execLutRateHz rate s) := by
  unfold execLutRateHz
  cases rateHz s.cfg.rateTable rate with
  | some f => exact .value f
  | none => exact .badArgument rate (.inr (.inl rfl))

/-- Only an empty table has no nearest entry. -/
theorem nearestRate_eq_none {mhz : Nat} {l : List (Byte × Nat)} (h : nearestRate mhz l = none) :
    l = [] := by
  cases l with
  | nil => rfl
  | cons e rest => cases h

theorem Ending.lutHzRate (mhz : BitVec 24) : Ending i s (execLutHzRate mhz s) := by
  unfold execLutHzRate
  cases h : nearestRate mhz.toNat s.cfg.rateTable with
  | some e => exact .value e.1.toNat
  | none => exact .emptyRateTable (nearestRate_eq_none h)

end

/-- How each instruction but FEED ends: a case for each constructor, the request and the builder of one
command together. -/
theorem exec_ending {i : Instr} (hi : ∀ b, i ≠ .feed b) (s : State) : Ending i s (exec i s) := by
  cases i with
  | feed b => exact absurd rfl (hi b)
  | frameStreamed p => exact .sample _
  | frameMag e | frameQuat e | frameTemp e | frameBatt e | frameVersion e => exact .echo rfl _ _
  | frameDateTime d => exact .echo rfl _ _
  | frameBurst reg e => exact .echo rfl _ _
  | decode F => exact .decode F
  | cmdSave | encSave | cmdRestore | encRestore | cmdCalAcc | encCalAcc | cmdCalMag | encCalMag
  | cmdCalQuit | encCalQuit => exact .command _ _ _
  | cmdSetRate rate => exact .buildRate (.inr rfl)
  | encSetRate rate => exact .buildRate (.inl rfl)
  | cmdReadReg reg | encReadReg reg => exact .command _ _ _
  | cmdTimeYm x y | encTimeYm x y | cmdTimeDh x y | encTimeDh x y | cmdTimeMs x y | encTimeMs x y =>
    exact .command _ _ _
  | cmdTimeMsec ms | encTimeMsec ms => exact .command _ _ _
  | cmdFwUpdate => exact .buildFwUpdate (.inr rfl)
  | encFwUpdate => exact .buildFwUpdate (.inl rfl)
  | lutBatt cv => exact .value _
  | lutRateHz rate => exact .lutRateHz rate
  | lutHzRate mhz => exact .lutHzRate mhz

theorem Ending.noFault {i : Instr} {s : State} {r : Result} (h : Ending i s r) (f : Fault) :
    r ≠ .fault f := by
  cases h <;> exact nofun

/-! ### FEED answers no command -/

theorem completion_ne_command (cfg : WireConfig) (F : Frame) (C : CommandBytes) :
    completion cfg F ≠ .ok (.command C) := by
  unfold completion
  cases decodeSample cfg F <;> exact nofun

theorem exec_feed_not_command {s t : State} {b : Byte} (h : exec (.feed b) s = .next t)
    (C : CommandBytes) : t.resp ≠ some (.ok (.command C)) := by
  by_cases hlast : s.phase = .collecting ∧ s.cursor.val = 19
  · obtain ⟨hp, hc⟩ := hlast
    obtain ⟨F, -, rfl⟩ := exec_feed_lastByte_next h hp hc
    exact fun he => completion_ne_command s.cfg F C (Option.some.inj he)
  · rw [exec_feed_noFrame h hlast]
    exact nofun

/-! ### What every instruction keeps -/

/-- An instruction leaves the configuration and the inputs alone, and answers in its step. -/
theorem exec_next_keeps {i : Instr} {s t : State} (h : exec i s = .next t) :
    t.cfg = s.cfg ∧ t.pending = s.pending ∧ ∃ r, t.resp = some r := by
  by_cases hi : ∃ b, i = .feed b
  · obtain ⟨b, rfl⟩ := hi
    obtain ⟨u, hu, hcfg, hpending, hresp⟩ | ⟨-, -, -, hu⟩ := execFeed_cases b s
    · obtain rfl : u = t := Host.Outcome.next.inj (hu.symm.trans h)
      exact ⟨hcfg, hpending, Option.isSome_iff_exists.mp hresp⟩
    · cases hu.symm.trans h
  · obtain ⟨r, rfl, -⟩ := exec_next_of_not_feed (fun b hb => hi ⟨b, hb⟩) h
    exact ⟨rfl, rfl, r, rfl⟩

/-! ### The statements of the family -/

/-- Settles O51. -/
theorem everyInstructionAnswersOnce : Obligations.EveryInstructionAnswersOnce := by
  intro i s t h
  obtain ⟨-, -, hresp⟩ := exec_next_keeps h
  exact hresp

/-- Settles O52, by cases on what the step takes. -/
theorem noStepChangesTheConfig : Obligations.NoStepChangesTheConfig := by
  intro s t h
  obtain ⟨-, rfl⟩ | ⟨_, _, -, ⟨_, rfl⟩ | ⟨-, rfl⟩ | ⟨i, -, hi⟩⟩ := step_next_cases h
  · rfl
  · rfl
  · rfl
  · obtain ⟨hcfg, -, -⟩ := exec_next_keeps hi
    exact hcfg

/-- Settles O53: taking the oldest input replaces the older response before anything is run. -/
theorem noStepReadsAResponse : Obligations.NoStepReadsAResponse := fun _ _ => rfl

/-- Settles O43: FEED answers no command, and every other instruction that does has built it. -/
theorem everyCommandHasTheFixedHeader : Obligations.EveryCommandHasTheFixedHeader := by
  intro i s t C h hC
  by_cases hi : ∃ b, i = .feed b
  · obtain ⟨b, rfl⟩ := hi
    exact absurd hC (exec_feed_not_command h C)
  · have hend := exec_ending (fun b hb => hi ⟨b, hb⟩) s
    rw [h] at hend
    cases hend <;> cases hC
    exact ⟨rfl, rfl⟩

/-- Settles O55: FEED reports the frame it completed, and `exec_ending` gives the origin of every other
error. -/
theorem errorsComeFromTheirInstructions : Obligations.ErrorsComeFromTheirInstructions := by
  intro i s t e h he
  by_cases hi : ∃ b, i = .feed b
  · obtain ⟨b, rfl⟩ := hi
    obtain ⟨-, -, F, -, rfl, -⟩ := exec_feed_error h he
    exact .inl ⟨F, rfl, .inl ⟨b, rfl⟩⟩
  · have hend := exec_ending (fun b hb => hi ⟨b, hb⟩) s
    rw [h] at hend
    cases hend <;> cases he
    next F horigin => exact .inl ⟨F, rfl, .inr horigin⟩
    next a horigin => exact .inr ⟨a, rfl, horigin⟩

/-- Settles O56: FEED is never refused, and of the two refusals `exec_ending` leaves an empty rate table
is ill formed. -/
theorem onlyUnboundFwUpdateIsRefused : Obligations.OnlyUnboundFwUpdateIsRefused := by
  intro i s r hw h
  by_cases hi : ∃ b, i = .feed b
  · obtain ⟨b, rfl⟩ := hi
    obtain ⟨u, hu, -⟩ | ⟨-, -, -, hu⟩ := execFeed_cases b s <;> cases hu.symm.trans h
  · have hend := exec_ending (fun b hb => hi ⟨b, hb⟩) s
    rw [h] at hend
    cases hend with
    | fwUpdateUnbound horigin hc => exact ⟨horigin, hc, rfl⟩
    | emptyRateTable hempty => exact absurd hempty (WireConfig.rateTableOk hw).nonempty

/-- Settles O57. -/
theorem statusCodesAreAsNumbered : Obligations.StatusCodesAreAsNumbered :=
  ⟨fun _ => rfl, rfl, fun _ => rfl, fun _ => rfl, fun _ => rfl⟩

end Sys2Proof.Machine
end

