-- ==== Sys2Proof/Proofs/ScaleTable.lean ====
section
/-! PROOF. The lookups (43_scale_table.md R190 to R194): the battery curve, a code's frequency, the
nearest code of a frequency, and that the two rate lookups are inverse to each other. -/

namespace Sys2Proof.Machine

open Sys2Proof

/-! ### LUT_BATT (R193, R194) -/

theorem exec_lutBatt (cv : HalfWord) (s : State) :
    exec (.lutBatt cv) s = .next { s with resp := some (.ok (.value (battPercent s.cfg cv.toNat))) } :=
  rfl

/-- Settles O44: `wellFormedConfigMeetsEveryCondition` gives BATT_PCT's conditions on every voltage. -/
theorem batteryLookupMeetsItsAnchors : Obligations.BatteryLookupMeetsItsAnchors := by
  intro s cv hw
  obtain ⟨-, -, -, -, -, -, -, hfull, hempty, hmono, hrange⟩ :=
    (wellFormedConfigMeetsEveryCondition s.cfg).mp hw
  refine ⟨_, exec_lutBatt cv s, hrange _, hfull _, hempty _, fun dv u hcd hu => ?_⟩
  rw [exec_lutBatt] at hu
  obtain rfl : battPercent s.cfg dv.toNat = u := by
    simpa using congrArg State.resp (Host.Outcome.next.inj hu)
  exact hmono _ _ hcd

/-- An entry of the default table. -/
theorem defaultBattPct_getElem (k : Nat) (hk : k < 71) : defaultBattPct[k] = k * 100 / 70 := by
  simp [defaultBattPct]

/-- The default curve: the spec's own interpolation between its two anchors (D22). -/
theorem battPercent_default {cfg : WireConfig} (h : cfg.battPct = defaultBattPct) (cv : Nat) :
    battPercent cfg cv
      = if 400 ≤ cv then 100 else if cv ≤ 330 then 0 else (cv - 330) * 100 / 70 := by
  rw [battPercent_eq_clamp]
  simp only [h, defaultBattPct_getElem]
  split_ifs with hfull hempty
  · rw [show min (cv - 330) 70 = 70 by omega]
  · rw [show min (cv - 330) 70 = 0 by omega]
  · rw [show min (cv - 330) 70 = cv - 330 by omega]

/-- Settles O45. -/
theorem defaultBatteryLookupInterpolates : Obligations.DefaultBatteryLookupInterpolates := by
  intro s cv h
  rw [exec_lutBatt, battPercent_default h]

/-! ### LUT_RATE_HZ (R191) -/

theorem exec_lutRateHz_of_some {s : State} {rate : Byte} {f : Nat}
    (h : rateHz s.cfg.rateTable rate = some f) :
    exec (.lutRateHz rate) s = .next { s with resp := some (.ok (.value f)) } := by
  change execLutRateHz rate s = _
  rw [execLutRateHz, h]; rfl

theorem exec_lutRateHz_of_none {s : State} {rate : Byte}
    (h : rateHz s.cfg.rateTable rate = none) :
    exec (.lutRateHz rate) s = .next { s with resp := some (.error (.badArgument rate)) } := by
  change execLutRateHz rate s = _
  rw [execLutRateHz, h]; rfl

/-- In a table of distinct codes each code has the frequency of its entry. -/
theorem rateHz_of_mem {l : List (Byte × Nat)} {c : Byte} {f : Nat} (hl : (l.map Prod.fst).Nodup)
    (h : (c, f) ∈ l) : rateHz l c = some f := by
  induction l with
  | nil => cases h
  | cons e rest ih =>
    obtain ⟨he, hrest⟩ := List.nodup_cons.mp hl
    obtain rfl | h := List.mem_cons.mp h
    · exact if_pos rfl
    · have hne : e.1 ≠ c := fun hc => he (List.mem_map.mpr ⟨(c, f), h, hc.symm⟩)
      exact (if_neg hne).trans (ih hrest h)

theorem rateHz_eq_none {l : List (Byte × Nat)} {c : Byte} (h : ∀ f, (c, f) ∉ l) :
    rateHz l c = none :=
  Option.eq_none_iff_forall_ne_some.mpr fun f hf => h f (rateHz_mem hf)

/-- Settles O46. -/
theorem rateLookupFollowsTheTable : Obligations.RateLookupFollowsTheTable := fun _ _ hw =>
  ⟨fun _ hf => exec_lutRateHz_of_some (rateHz_of_mem (WireConfig.rateTableOk hw).codes hf),
    fun hf => exec_lutRateHz_of_none (rateHz_eq_none hf)⟩

/-! ### LUT_HZ_RATE (R192) -/

/-- An entry is nearer to a frequency than another, or as near and not above it. -/
def NearerOrLower (mhz : Nat) (a b : Byte × Nat) : Prop :=
  ((a.2 : Int) - mhz).natAbs < ((b.2 : Int) - mhz).natAbs
    ∨ (((a.2 : Int) - mhz).natAbs = ((b.2 : Int) - mhz).natAbs ∧ a.2 ≤ b.2)

theorem NearerOrLower.refl (mhz : Nat) (a : Byte × Nat) : NearerOrLower mhz a a := .inr ⟨rfl, le_rfl⟩

theorem NearerOrLower.trans {mhz : Nat} {a b c : Byte × Nat} (hab : NearerOrLower mhz a b)
    (hbc : NearerOrLower mhz b c) : NearerOrLower mhz a c := by
  unfold NearerOrLower at *
  omega

theorem freqDistance_eq_natAbs (f mhz : Nat) : freqDistance f mhz = ((f : Int) - mhz).natAbs := by
  unfold freqDistance
  omega

/-- The entry chosen of two is no worse than either. -/
theorem nearer_nearerOrLower (mhz : Nat) (a b : Byte × Nat) :
    NearerOrLower mhz (nearer mhz a b) a ∧ NearerOrLower mhz (nearer mhz a b) b := by
  simp only [nearer, NearerOrLower, freqDistance_eq_natAbs]
  split_ifs <;> omega

/-- The entry that a scan of the table keeps is no worse than any it has seen. -/
theorem foldl_nearer_nearerOrLower (mhz : Nat) (l : List (Byte × Nat)) (a : Byte × Nat) :
    ∀ b ∈ a :: l, NearerOrLower mhz (l.foldl (nearer mhz) a) b := by
  induction l generalizing a with
  | nil => exact List.forall_mem_singleton.mpr (.refl mhz a)
  | cons c rest ih =>
    obtain ⟨ha, hc⟩ := nearer_nearerOrLower mhz a c
    obtain ⟨hkept, hrest⟩ := List.forall_mem_cons.mp (ih (nearer mhz a c))
    exact List.forall_mem_cons.mpr ⟨hkept.trans ha, List.forall_mem_cons.mpr ⟨hkept.trans hc, hrest⟩⟩

/-- A table with entries has a nearest one. -/
theorem exists_nearestRate (mhz : Nat) {l : List (Byte × Nat)} (hl : l ≠ []) :
    ∃ e ∈ l, nearestRate mhz l = some e ∧ ∀ b ∈ l, NearerOrLower mhz e b := by
  obtain ⟨a, rest, rfl⟩ := List.exists_cons_of_ne_nil hl
  exact ⟨_, nearestRate_mem rfl, rfl, foldl_nearer_nearerOrLower mhz rest a⟩

theorem exec_lutHzRate_of_some {s : State} {mhz : BitVec 24} {e : Byte × Nat}
    (h : nearestRate mhz.toNat s.cfg.rateTable = some e) :
    exec (.lutHzRate mhz) s = .next { s with resp := some (.ok (.value e.1.toNat)) } := by
  change execLutHzRate mhz s = _
  rw [execLutHzRate, h]; rfl

/-- Settles O47. -/
theorem frequencyLookupIsNearest : Obligations.FrequencyLookupIsNearest := by
  intro s mhz hw
  obtain ⟨e, he, hnearest, hbest⟩ :=
    exists_nearestRate mhz.toNat (WireConfig.rateTableOk hw).nonempty
  exact ⟨e, he, exec_lutHzRate_of_some hnearest, hbest⟩

/-! ### The two rate lookups together (R192) -/

/-- In a table of distinct frequencies the nearest entry to a frequency of the table is its own. -/
theorem nearestRate_of_mem {l : List (Byte × Nat)} {c : Byte} {f : Nat}
    (hl : (l.map Prod.snd).Nodup) (h : (c, f) ∈ l) : nearestRate f l = some (c, f) := by
  obtain ⟨e, he, hnearest, hbest⟩ := exists_nearestRate f (List.ne_nil_of_mem h)
  have hf : e.2 = f := by
    have hle := hbest _ h
    simp only [NearerOrLower] at hle
    omega
  rw [hnearest, List.inj_on_of_nodup_map hl he h hf]

/-- A frequency of a well-formed table fits the 24-bit operand. -/
theorem rateTable_freq_fits {l : List (Byte × Nat)} (hl : RateTableOk l) {c : Byte} {f : Nat}
    (h : (c, f) ∈ l) : (BitVec.ofNat 24 f).toNat = f := by
  have hle : f ≤ 200000 := hl.highest _ h
  rw [BitVec.toNat_ofNat]
  exact Nat.mod_eq_of_lt (by omega)

/-- Settles O48. -/
theorem rateLookupsAreInverse : Obligations.RateLookupsAreInverse := by
  intro s c f hw h
  have hl := WireConfig.rateTableOk hw
  have hfits := rateTable_freq_fits hl h
  have hnearest : nearestRate (BitVec.ofNat 24 f).toNat s.cfg.rateTable = some (c, f) := by
    rw [hfits]
    exact nearestRate_of_mem hl.freqs h
  exact ⟨exec_lutRateHz_of_some (rateHz_of_mem hl.codes h), exec_lutHzRate_of_some hnearest, hfits⟩

end Sys2Proof.Machine
end

