-- ==== Sys2Proof/Proofs/Steps.lean ====
section
/-! PROOF. One step of the block (20_memory.md R48): what it runs for each input, reset, and FEED's part
in it: where it stores, that it completes, and that no step reads an unknown byte. -/

namespace Sys2Proof.Machine

open Sys2Proof

/-! ### What a step runs -/

section

variable {s : State} {rest : List Input}

/-- A step whose oldest input stands for an instruction runs it. -/
theorem step_of_take {x : Input} {i : Instr} (hw : s.cfg.wf = true) (hp : s.pending = x :: rest)
    (h : State.take { s with pending := rest, resp := none } x
      = .run i { s with pending := rest, resp := none }) :
    step s = exec i { s with pending := rest, resp := none } := by
  rw [step, State.fetch_cons hw hp, h]

theorem step_request {w : ReqWord} {d : DecIn} {i : Instr} (hw : s.cfg.wf = true)
    (hp : s.pending = .request w d :: rest) (hd : decodeRequest w d = .accepted i) :
    step s = exec i { s with pending := rest, resp := none } :=
  step_of_take hw hp (State.take_request hd)

theorem step_reset (hw : s.cfg.wf = true) (hp : s.pending = .reset :: rest) :
    step s = .next { s with phase := .seekHeading, cursor := 0, pending := rest, resp := none } := by
  rw [step, State.fetch_reset hw hp]
  rfl

theorem step_idle (hw : s.cfg.wf = true) (hp : s.pending = []) :
    step s = .next { s with resp := none } := by
  rw [step, State.fetch_nil hw hp]

end

/-- A step that faults ran an instruction that faults. -/
theorem step_fault_cases {s : State} {f : Fault} (h : step s = .fault f) :
    ∃ i rest, exec i { s with pending := rest, resp := none } = .fault f := by
  cases hw : s.cfg.wf with
  | false => simp [step, State.fetch_of_not_wf hw] at h
  | true =>
    cases hp : s.pending with
    | nil => cases (step_idle hw hp).symm.trans h
    | cons x rest =>
      rw [step, State.fetch_cons hw hp] at h
      obtain ⟨i, hx⟩ | ⟨e, hx⟩ | ⟨-, hx⟩ :=
        State.take_cases { s with pending := rest, resp := none } x <;> rw [hx] at h
      · exact ⟨i, rest, h⟩
      · cases h
      · cases h

/-! ### Several steps -/

theorem run_succ_of_next {s t : State} (h : step s = .next t) (k : Nat) : run (k + 1) s = run k t := by
  rw [run, h]

theorem observe_succ_of_next {s t : State} (h : step s = .next t) (k : Nat) :
    observe (k + 1) s = t.resp :: observe k t := by
  rw [observe, h]

/-! ### FEED in a step -/

/-- The request word of a FEED decodes to it. -/
theorem decodeRequest_feedWord (b : Byte) :
    decodeRequest (wordOfByte 0x01#8 b) 0 = .accepted (.feed b) :=
  decodeRequest_wordOfByte 0 rfl b 0

theorem emitFrame_congr {s t : State} (p : List Input) (r : Option Response)
    (h : emitFrame s = .next t) :
    emitFrame { s with pending := p, resp := r } = .next { t with pending := p } := by
  unfold emitFrame at *
  dsimp only
  split at h <;> cases h
  rfl

/-- FEED reads neither what the host has issued nor the older response. -/
theorem exec_feed_congr {s t : State} {b : Byte} (p : List Input) (r : Option Response)
    (h : exec (.feed b) s = .next t) :
    exec (.feed b) { s with pending := p, resp := r } = .next { t with pending := p } := by
  obtain ⟨phase, cursor, buf, cfg, pending, resp⟩ := s
  cases phase with
  | seekHeading =>
    rw [exec_feed_seekHeading b rfl] at h ⊢
    unfold feedSeekHeading at *
    split_ifs at * <;> cases h <;> rfl
  | awaitFlag =>
    rw [exec_feed_awaitFlag b rfl] at h ⊢
    unfold feedAwaitFlag at *
    dsimp only at *
    split_ifs at * <;> cases h <;> rfl
  | awaitRegister =>
    rw [exec_feed_awaitRegister b rfl] at h ⊢
    cases h
    rfl
  | collecting =>
    rw [exec_feed_collecting b rfl] at h ⊢
    by_cases hlt : cursor.val + 1 < 20
    · rw [feedCollecting_of_lt b (by exact hlt)] at h ⊢
      cases h
      rfl
    · rw [feedCollecting_of_last b (by exact hlt)] at h ⊢
      exact emitFrame_congr p r h

/-- Issued in any state, a FEED does what it does there, whatever the block held pending or answered. -/
theorem step_issued_feed {s t : State} {b : Byte} {w : ReqWord} {d : DecIn} (rest : List Input)
    (r : Option Response) (hw : s.cfg.wf = true) (hd : decodeRequest w d = .accepted (.feed b))
    (h : exec (.feed b) s = .next t) :
    step { s with pending := .request w d :: rest, resp := r } = .next { t with pending := rest } := by
  have hfed := exec_feed_congr rest none h
  exact (step_request (by exact hw) rfl hd).trans hfed

theorem step_feedInput {s t : State} {b : Byte} {rest : List Input} (hw : s.cfg.wf = true)
    (hp : s.pending = feedInput b :: rest) (h : exec (.feed b) s = .next t) :
    step s = .next { t with pending := rest } :=
  (step_request hw hp (decodeRequest_feedWord b)).trans (exec_feed_congr rest none h)

/-! ### Where FEED stores -/

/-- One frame space is another with a byte stored at the listed offsets. -/
def StoredAt (offsets : List Nat) (b : Byte) (m m' : Memory) : Prop :=
  (∀ o, o ∉ offsets → m'.read o = m.read o) ∧ ∀ o ∈ offsets, m'.read o = some b

theorem StoredAt.nil (b : Byte) (m : Memory) : StoredAt [] b m m := ⟨fun _ _ => rfl, nofun⟩

theorem StoredAt.write {offsets : List Nat} {b : Byte} {m m' : Memory} (h : StoredAt offsets b m m')
    (o : Fin 20) : StoredAt (o.val :: offsets) b m (m'.write o b) := by
  obtain ⟨hkept, hstored⟩ := h
  refine ⟨fun a ha => ?_, fun a ha => ?_⟩
  · obtain ⟨hne, hout⟩ := not_or.mp (mt List.mem_cons.mpr ha)
    rw [Memory.read_write_other m' o b hne, hkept a hout]
  · rw [Memory.read_write]
    split_ifs with hao
    · rfl
    · exact hstored a ((List.mem_cons.mp ha).resolve_left hao)

theorem storedAt_write (o : Fin 20) (b : Byte) (m : Memory) :
    StoredAt [o.val] b m (m.write o b) := (StoredAt.nil b m).write o

theorem emitFrame_buf {s t : State} (h : emitFrame s = .next t) : t.buf = s.buf := by
  unfold emitFrame at h
  split at h <;> cases h
  rfl

/-- FEED stores its byte at the offsets that the phase names, and at no other. -/
theorem exec_feed_storedAt {s t : State} {b : Byte} (h : exec (.feed b) s = .next t) :
    StoredAt (feedStores s b) b s.buf t.buf := by
  cases hp : s.phase with
  | seekHeading =>
    rw [exec_feed_seekHeading b hp, feedSeekHeading] at h
    simp only [feedStores, hp]
    split_ifs at h ⊢ <;> cases h
    · exact storedAt_write 0 b s.buf
    · exact .nil b s.buf
  | awaitFlag =>
    rw [exec_feed_awaitFlag b hp] at h
    simp only [feedAwaitFlag] at h
    simp only [feedStores, hp]
    have hstore : StoredAt [1] b s.buf (s.buf.write 1 b) := storedAt_write 1 b s.buf
    by_cases hhead : b = heading
    · rw [if_neg (by rw [hhead]; decide), if_neg (by rw [hhead]; decide), if_pos hhead] at h
      rw [if_pos hhead]
      cases h
      exact hstore.write 0
    · rw [if_neg hhead] at h ⊢
      split_ifs at h <;> cases h <;> exact hstore
  | awaitRegister =>
    rw [exec_feed_awaitRegister b hp] at h
    simp only [feedStores, hp]
    cases h
    exact storedAt_write 2 b s.buf
  | collecting =>
    rw [exec_feed_collecting b hp] at h
    simp only [feedStores, hp]
    have hstore := storedAt_write s.cursor b s.buf
    by_cases hlt : s.cursor.val + 1 < 20
    · rw [feedCollecting_of_lt b hlt] at h
      cases h
      exact hstore
    · rw [feedCollecting_of_last b hlt] at h
      rw [emitFrame_buf h]
      exact hstore

/-! ### FEED completes under the invariant (R30, R100) -/

theorem State.Inv.exec_feed_next {s : State} (hs : s.Inv) (b : Byte) :
    ∃ t, exec (.feed b) s = .next t ∧ t.cfg = s.cfg ∧ t.pending = s.pending
      ∧ t.resp.isSome = true := by
  refine (execFeed_cases b s).resolve_right fun ⟨hp, hcur, hnone, _⟩ => ?_
  obtain ⟨F, hF, -, -⟩ := hs.completed_frame b hp hcur
  have hc : s.cursor = 19 := Fin.ext hcur
  rw [hc, hF] at hnone
  cases hnone

theorem State.Inv.exec_noFault {s : State} (hs : s.Inv) (i : Instr) (f : Fault) :
    exec i s ≠ .fault f := by
  by_cases hi : ∃ b, i = .feed b
  · obtain ⟨b, rfl⟩ := hi
    obtain ⟨t, ht, -⟩ := hs.exec_feed_next b
    rw [ht]
    exact nofun
  · exact (exec_ending (fun b hb => hi ⟨b, hb⟩) s).noFault f

/-! ### The statements of the family -/

/-- Settles O8, input by input. -/
theorem stepRunsTheDecodedInstruction : Obligations.StepRunsTheDecodedInstruction := fun _ _ hw =>
  ⟨fun _ _ _ hp hd => step_request hw hp hd,
    fun _ _ hp hd => step_of_take hw hp (State.take_frame hd),
    fun b hp => step_of_take hw hp (State.take_builder _ b)⟩

/-- Settles O10. -/
theorem resetInputRestartsTheSynchronizer : Obligations.ResetInputRestartsTheSynchronizer :=
  fun _ _ => step_reset

/-- Settles O12. -/
theorem idleStepHoldsTheState : Obligations.IdleStepHoldsTheState := fun _ => step_idle

/-- Settles O14. -/
theorem illFormedConfigIsRefused : Obligations.IllFormedConfigIsRefused := by
  intro s hw
  rw [step, State.fetch_of_not_wf hw]

/-- Settles O15. -/
theorem resetStateIsAsTheRulesSay : Obligations.ResetStateIsAsTheRulesSay :=
  ⟨rfl, rfl, Memory.read_nil, rfl⟩

/-- Settles O16. -/
theorem resetStateSatisfiesTheInvariant : Obligations.ResetStateSatisfiesTheInvariant :=
  State.reset_inv

/-- Settles O17. -/
theorem seekHeadingWaitsForAHeading : Obligations.SeekHeadingWaitsForAHeading := by
  intro s b hp
  rw [exec_feed_seekHeading b hp]
  exact ⟨by rintro rfl; exact feedSeekHeading_heading s, fun hb => feedSeekHeading_of_ne hb s⟩

/-- Settles O11: the reset step leaves SeekHeading, where the byte is fed. -/
theorem resetDropsThePartialFrame : Obligations.ResetDropsThePartialFrame := by
  intro s b rest hw hp
  have hreset := step_reset hw hp
  obtain ⟨hheading, hother⟩ := seekHeadingWaitsForAHeading
    { s with phase := .seekHeading, cursor := 0, pending := feedInput b :: rest, resp := none } b rfl
  rw [run_succ_of_next hreset, observe_succ_of_next hreset]
  by_cases hb : b = 0x55#8
  · have hfed := step_feedInput (by exact hw) rfl (hheading hb)
    rw [run_succ_of_next hfed, observe_succ_of_next hfed, if_pos hb, if_pos hb]
    exact ⟨rfl, _, rfl, rfl, rfl, rfl⟩
  · have hfed := step_feedInput (by exact hw) rfl (hother hb)
    rw [run_succ_of_next hfed, observe_succ_of_next hfed, if_neg hb, if_neg hb]
    exact ⟨rfl, _, rfl, rfl, rfl, rfl⟩

/-- Settles O22. -/
theorem feedStoresOnlyWhereTheRulesSay : Obligations.FeedStoresOnlyWhereTheRulesSay := by
  intro s t b h
  obtain ⟨hcfg, hpending, -⟩ := exec_next_keeps h
  exact ⟨hcfg, hpending, exec_feed_storedAt h⟩

/-- Settles O23: of the two ways a FEED can end, the invariant excludes the fault. -/
theorem feedCompletesOnEveryByte : Obligations.FeedCompletesOnEveryByte := fun _ b hs =>
  hs.exec_feed_next b

/-- Settles O27: a faulting step runs a faulting instruction, and under the invariant none faults. -/
theorem noStepReadsAnUnknownByte : Obligations.NoStepReadsAnUnknownByte := by
  intro s f hs h
  obtain ⟨i, rest, hi⟩ := step_fault_cases h
  have hs' : State.Inv { s with pending := rest, resp := none } := hs.of_arch_eq rfl
  exact hs'.exec_noFault i f hi

end Sys2Proof.Machine
end

