-- ==== Sys2Proof/Proofs/Streams.lean ====
section
/-! PROOF. A stream of fed bytes (40_synchronizer.md R108, R110): 20 bytes yield their frame, fed bytes
bound the frames that come out, and the other requests do not disturb them. -/

namespace Sys2Proof.Machine

open Sys2Proof

/-! ### Twenty bytes yield their frame (R108) -/

/-- The bytes below the cursor are those of a frame. -/
def State.Holds (s : State) (F : Frame) : Prop :=
  ∀ o : Fin 20, o.val < s.cursor.val → s.buf.read o.val = some F[o.val]

/-- The byte of a frame at the cursor, stored there, extends what is held of it. -/
theorem State.Holds.store {s t : State} {F : Frame} (h : s.Holds F)
    (hb : t.buf = s.buf.write s.cursor F[s.cursor.val]) (hc : t.cursor.val = s.cursor.val + 1) :
    t.Holds F := by
  intro o ho
  rw [hb, Memory.read_write]
  split_ifs with hoc
  · simp only [hoc]
  · exact h o (by omega)

theorem Frame.toList_drop (F : Frame) (c : Fin 20) :
    F.toList.drop c.val = F[c.val] :: F.toList.drop (c.val + 1) := by
  rw [List.drop_eq_getElem_cons (by simp)]
  simp

theorem exists_frame_of_length {l : List Byte} (h : l.length = 20) : ∃ F : Frame, F.toList = l :=
  ⟨⟨l.toArray, h⟩, rfl⟩

/-- In Collecting, with a frame held up to the cursor, the rest of its bytes give NONE but for the last,
which completes the frame; the synchronizer then seeks a heading. -/
theorem collecting_completes {F : Frame} {rest : List Input} (k : Nat) {s : State}
    (hw : s.cfg.wf = true) (hp : s.phase = .collecting) (hk : s.cursor.val + k = 19)
    (hF : s.Holds F) (hpend : s.pending = feeds (F.toList.drop s.cursor.val) ++ rest) :
    observe (k + 1) s = List.replicate k (some .noFrame) ++ [some (completion s.cfg F)]
      ∧ ∃ t, run (k + 1) s = .next t ∧ t.phase = .seekHeading ∧ t.cursor = 0 ∧ t.pending = rest := by
  induction k generalizing s with
  | zero =>
    have hc : s.cursor = 19 := Fin.ext hk
    have hnext : s.pending = feedInput F[19] :: rest := by
      rw [hpend, Frame.toList_drop, hc]
      simp [feeds]
    have hheld : ∀ o : Fin 20, o.val < 19 → s.buf.read o.val = some F[o.val] :=
      fun o ho => hF o (by omega)
    have hstep := step_feedInput hw hnext (exec_feed_lastByte hp hk (Memory.frame_write_last hheld))
    rw [observe_succ_of_next hstep, run_succ_of_next hstep]
    exact ⟨rfl, _, rfl, rfl, rfl, rfl⟩
  | succ k ih =>
    have hlt : s.cursor.val + 1 < 20 := by omega
    have hnext : s.pending
        = feedInput F[s.cursor.val] :: (feeds (F.toList.drop (s.cursor.val + 1)) ++ rest) := by
      rw [hpend, Frame.toList_drop]
      rfl
    have hstep := step_feedInput hw hnext (exec_feed_collecting_of_lt F[s.cursor.val] hp hlt)
    rw [observe_succ_of_next hstep, run_succ_of_next hstep]
    obtain ⟨hobs, hrun⟩ := ih (s := { s with
      buf := s.buf.write s.cursor F[s.cursor.val], cursor := ⟨s.cursor.val + 1, hlt⟩,
      pending := feeds (F.toList.drop (s.cursor.val + 1)) ++ rest, resp := some .noFrame })
      hw hp (by dsimp only; omega) (hF.store rfl rfl) rfl
    exact ⟨by rw [hobs]; rfl, hrun⟩

/-- A streamed frame completes with its sample. -/
theorem completion_streamed (cfg : WireConfig) {F : Frame} (h0 : F[0] = heading)
    (h1 : F[1] = flagStream) :
    completion cfg F = .ok (.frame F (streamedSample F.streamFields)) :=
  completion_of_accepted (decodeSample_of_classify (classify_streamed cfg F h0 h1))

/-- From SeekHeading a heading and the streamed flag are answered with NONE, and lead to Collecting with
both stored. -/
theorem collecting_after_streamed_head {s : State} {l : List Byte} {rest : List Input}
    (hw : s.cfg.wf = true) (hp : s.phase = .seekHeading)
    (hpend : s.pending = feeds (heading :: flagStream :: l) ++ rest) :
    ∃ t : State, (∀ k, run (k + 2) s = run k t)
      ∧ (∀ k, observe (k + 2) s = some .noFrame :: some .noFrame :: observe k t)
      ∧ t.phase = .collecting ∧ t.cursor = 2 ∧ t.buf = (s.buf.write 0 heading).write 1 flagStream
      ∧ t.cfg = s.cfg ∧ t.pending = feeds l ++ rest := by
  have hseek := step_feedInput (rest := feeds (flagStream :: l) ++ rest) hw hpend
    ((exec_feed_seekHeading heading hp).trans (feedSeekHeading_heading s))
  have hflag := step_feedInput (rest := feeds l ++ rest) (by exact hw) (by rfl)
    ((exec_feed_awaitFlag flagStream (by rfl)).trans (feedAwaitFlag_flagStream { s with
      buf := s.buf.write 0 heading, cursor := 1, phase := .awaitFlag,
      pending := feeds (flagStream :: l) ++ rest, resp := some .noFrame }))
  exact ⟨_, fun k => (run_succ_of_next hseek _).trans (run_succ_of_next hflag k),
    fun k => (observe_succ_of_next hseek _).trans (congrArg _ (observe_succ_of_next hflag k)),
    rfl, rfl, rfl, rfl, rfl⟩

/-- The two bytes stored so are held of a frame that begins with them. -/
theorem State.Holds.of_streamed_head {t : State} {m : Memory} {F : Frame} (h0 : F[0] = heading)
    (h1 : F[1] = flagStream) (hb : t.buf = (m.write 0 heading).write 1 flagStream)
    (hc : t.cursor = 2) : t.Holds F := by
  intro o ho
  rw [hc] at ho
  rw [hb]
  obtain rfl | rfl : o = 0 ∨ o = 1 := by
    have ho' : o.val < 2 := ho
    omega
  · exact (Memory.read_write_other _ 1 _ (by decide)).trans
      ((Memory.read_write_same m 0 heading).trans (congrArg some h0.symm))
  · exact (Memory.read_write_same _ 1 flagStream).trans (congrArg some h1.symm)

/-- Settles O28: the heading and the flag lead to Collecting with two bytes of the frame held, and
`collecting_completes` takes the other 18. -/
theorem twentyFedBytesYieldTheirFrame : Obligations.TwentyFedBytesYieldTheirFrame := by
  intro s p rest hw hp hpend
  obtain ⟨F, hF⟩ := exists_frame_of_length (l := [0x55#8, 0x61#8] ++ p.toList) (by simp)
  have h0 : F[0] = heading := by
    rw [← Vector.getElem_toList (by simp)]; simp [hF]
  have h1 : F[1] = flagStream := by
    rw [← Vector.getElem_toList (by simp)]; simp [hF]
  obtain ⟨u, hrun, hobs, hcollect, hcur, hbuf, hcfg, hrest⟩ :=
    collecting_after_streamed_head hw hp hpend
  obtain ⟨hobs', t, hrun', hseeks, hcur', hrest'⟩ := collecting_completes 17 (hcfg ▸ hw) hcollect
    (by rw [hcur]; rfl) (.of_streamed_head h0 h1 hbuf hcur) (by rw [hrest, hcur, hF]; rfl)
  refine ⟨t, F, hF, ?_, (hrun 18).trans hrun', hseeks, hcur', hrest'⟩
  rw [hobs 18, hobs', completion_streamed _ h0 h1]
  rfl

/-! ### Fed bytes bound the frames (R110) -/

/-- FEED moves the cursor on by at most one. -/
theorem State.Inv.exec_feed_cursor_le {s t : State} {b : Byte} (hs : s.Inv)
    (h : exec (.feed b) s = .next t) : t.cursor.val ≤ s.cursor.val + 1 := by
  obtain ⟨-, hphase, -⟩ := hs
  cases hp : s.phase with
  | seekHeading =>
    rw [exec_feed_seekHeading b hp, feedSeekHeading] at h
    split_ifs at h <;> cases h
    · exact Nat.le_add_left 1 _
    · exact Nat.le_succ _
  | awaitFlag =>
    obtain ⟨hcur, -⟩ := (State.phaseInv_awaitFlag hp).mp hphase
    rw [exec_feed_awaitFlag b hp] at h
    simp only [feedAwaitFlag] at h
    rw [hcur]
    split_ifs at h <;> cases h <;> simp
  | awaitRegister =>
    obtain ⟨hcur, -⟩ := (State.phaseInv_awaitRegister hp).mp hphase
    rw [exec_feed_awaitRegister b hp] at h
    cases h
    simp [hcur]
  | collecting =>
    by_cases hlt : s.cursor.val + 1 < 20
    · rw [exec_feed_collecting_of_lt b hp hlt] at h
      cases h
      exact le_rfl
    · obtain ⟨F, -, rfl⟩ := exec_feed_lastByte_next h hp (by omega)
      exact Nat.zero_le _

theorem completions_cons (r : Option Response) (l : List (Option Response)) :
    completions (r :: l) = completions [r] + completions l := by
  simp only [completions, List.countP_cons, List.countP_nil]
  omega

theorem completions_singleton_le (r : Option Response) : completions [r] ≤ 1 :=
  List.countP_le_length

/-- Each byte fed pays for one of the 20 bytes of a frame: completing one gives back those held. -/
theorem State.Inv.exec_feed_pays {s t : State} {b : Byte} (hs : s.Inv)
    (h : exec (.feed b) s = .next t) :
    20 * completions [t.resp] + t.cursor.val ≤ s.cursor.val + 1 := by
  by_cases hlast : s.phase = .collecting ∧ s.cursor.val = 19
  · obtain ⟨hp, hc⟩ := hlast
    obtain ⟨F, -, rfl⟩ := exec_feed_lastByte_next h hp hc
    have hone := completions_singleton_le (some (completion s.cfg F))
    show 20 * completions [some (completion s.cfg F)] + 0 ≤ _
    omega
  · rw [exec_feed_noFrame h hlast]
    have hcur := hs.exec_feed_cursor_le h
    show 20 * 0 + _ ≤ _
    omega

/-- Settles O30, by induction on the bytes: each step pays for its byte. -/
theorem fedBytesBoundTheFrames : Obligations.FedBytesBoundTheFrames := by
  intro s bs hw hs hpend
  suffices h : ∃ t, run bs.length s = .next t
      ∧ 20 * completions (observe bs.length s) + t.cursor.val ≤ bs.length + s.cursor.val by
    obtain ⟨t, hrun, hpaid⟩ := h
    exact ⟨t, hrun, hpaid, by omega⟩
  induction bs generalizing s with
  | nil => exact ⟨s, rfl, by simp [observe, completions]⟩
  | cons b bs ih =>
    obtain ⟨u, hu, hcfg, -, -⟩ := hs.exec_feed_next b
    have hstep := step_feedInput (rest := feeds bs) hw hpend hu
    have hpaid := hs.exec_feed_pays hu
    obtain ⟨t, hrun, hrest⟩ := ih { u with pending := feeds bs } (by rw [← hcfg] at hw; exact hw)
      (step_keeps_inv hs hstep) rfl
    refine ⟨t, (run_succ_of_next hstep _).trans hrun, ?_⟩
    rw [List.length_cons, observe_succ_of_next hstep, completions_cons]
    dsimp only at hrest ⊢
    omega

/-! ### Other requests do not disturb the stream (R108) -/

theorem Input.isFeed_iff (x : Input) :
    x.isFeed = true ↔ ∃ w d b, x = .request w d ∧ decodeRequest w d = .accepted (.feed b) := by
  constructor
  · intro h
    unfold Input.isFeed at h
    split at h
    · next w d =>
      split at h
      · next b hd => exact ⟨w, d, b, rfl, hd⟩
      · cases h
    · cases h
  · rintro ⟨w, d, b, rfl, hd⟩
    simp [Input.isFeed, hd]

/-- A request word stands for no CMD row. -/
theorem decodeRequest_ne_cmdFwUpdate (cfg : WireConfig) {w : ReqWord} {d : DecIn} :
    decodeRequest w d ≠ .accepted .cmdFwUpdate := by
  intro h
  obtain ⟨⟨d', henc⟩, -⟩ := acceptedRequestHasOneSpelling cfg w d _ h
  obtain ⟨c, -, hc⟩ := Option.map_eq_some_iff.mp henc
  cases hc

/-- An observed response that is no frame with its sample. -/
def NotFrame (r : Option Response) : Prop := ∀ F S, r ≠ some (.ok (.frame F S))

theorem emitted_cons_congr (r : Option Response) {l l' : List (Option Response)}
    (h : emitted l = emitted l') : emitted (r :: l) = emitted (r :: l') := by
  have hcons (l : List (Option Response)) : emitted (r :: l) = emitted [r] ++ emitted l :=
    List.filterMap_append (l := [r])
  rw [hcons l, hcons l', h]

theorem NotFrame.emitted_cons {r : Option Response} (h : NotFrame r) (l : List (Option Response)) :
    emitted (r :: l) = emitted l := by
  refine List.filterMap_cons_none ?_
  split
  · next F S => exact absurd rfl (h F S)
  · rfl

/-- A request that runs an instruction other than FEED, and is not refused, changes the response alone
and emits no frame. -/
theorem exec_other_request {s : State} {i : Instr} (hw : s.cfg.wf = true) (hi : ∀ b, i ≠ .feed b)
    (hcmd : i ≠ .cmdFwUpdate) (hfw : s.cfg.fwupdCode ≠ none ∨ i ≠ .encFwUpdate) :
    ∃ r, exec i s = .next { s with resp := r } ∧ NotFrame r := by
  generalize hres : exec i s = res
  have hend := hres ▸ exec_ending hi s
  cases hend with
  | fwUpdateUnbound horigin hc =>
    obtain hbound | hne := hfw
    · exact absurd hc hbound
    · exact absurd horigin (not_or.mpr ⟨hne, hcmd⟩)
  | emptyRateTable h => exact absurd h (WireConfig.rateTableOk hw).nonempty
  | _ => exact ⟨_, rfl, fun F S h => by cases h⟩

/-- A step that takes a request other than FEED, and is not refused, takes the input, changes the
response and emits no frame. -/
theorem step_other_request {s : State} {x : Input} {rest : List Input} (hw : s.cfg.wf = true)
    (hp : s.pending = x :: rest) (hx : x.isRequest = true) (hfeed : ¬ x.isFeed = true)
    (hfw : s.cfg.fwupdCode ≠ none
      ∨ ∀ w d, x = .request w d → decodeRequest w d ≠ .accepted .encFwUpdate) :
    ∃ r, step s = .next { s with pending := rest, resp := r } ∧ NotFrame r := by
  cases x with
  | request w d =>
    cases hd : decodeRequest w d with
    | accepted i =>
      rw [step_request hw hp hd]
      refine exec_other_request (s := { s with pending := rest, resp := none }) hw ?_ ?_ ?_
      · rintro b rfl
        exact hfeed ((Input.isFeed_iff _).mpr ⟨w, d, b, rfl, hd⟩)
      · rintro rfl
        exact decodeRequest_ne_cmdFwUpdate s.cfg hd
      · refine hfw.imp_right ?_
        rintro h rfl
        exact h w d rfl hd
    | rejected r =>
      refine ⟨some (.error (.illegalRequest w)), ?_, fun F S h => by cases h⟩
      rw [step, State.fetch_cons hw hp, State.take_request_of_rejected hd]
      rfl
  | _ => cases hx

/-- Settles O29, by induction on the requests; the second run may start with any older response. A FEED
is taken by both runs alike, any other request by the first alone. -/
theorem otherRequestsDoNotDisturbTheStream : Obligations.OtherRequestsDoNotDisturbTheStream := by
  intro s l hw hs hreq hfw
  suffices h : ∀ resp : Option Response,
      ∃ t t', run l.length { s with pending := l } = .next t
      ∧ run (l.filter Input.isFeed).length
          { s with pending := l.filter Input.isFeed, resp := resp } = .next t'
      ∧ t.arch = t'.arch
      ∧ emitted (observe l.length { s with pending := l })
          = emitted (observe (l.filter Input.isFeed).length
              { s with pending := l.filter Input.isFeed, resp := resp }) from h s.resp
  induction l generalizing s with
  | nil => exact fun resp => ⟨_, _, rfl, rfl, rfl, rfl⟩
  | cons x rest ih =>
    intro resp
    obtain ⟨hx, hrest⟩ := List.forall_mem_cons.mp hreq
    have hfwRest : s.cfg.fwupdCode ≠ none
        ∨ ∀ w d, .request w d ∈ rest → decodeRequest w d ≠ .accepted .encFwUpdate :=
      hfw.imp_right fun h w d hmem => h w d (List.mem_cons_of_mem x hmem)
    by_cases hfeed : x.isFeed = true
    · obtain ⟨w, d, b, rfl, hd⟩ := (Input.isFeed_iff x).mp hfeed
      obtain ⟨u, hu, hcfg, -, -⟩ := hs.exec_feed_next b
      have hall : step { s with pending := .request w d :: rest } = .next { u with pending := rest } :=
        step_issued_feed rest _ hw hd hu
      have honly : step { s with
            pending := .request w d :: rest.filter Input.isFeed, resp := resp }
          = .next { u with pending := rest.filter Input.isFeed } :=
        step_issued_feed _ resp hw hd hu
      obtain ⟨t, t', hrun, hrun', harch, hemit⟩ := ih u (by rw [hcfg]; exact hw)
        (execFeed_keeps_inv hs hu) hrest (by rw [hcfg]; exact hfwRest) u.resp
      rw [List.filter_cons_of_pos hfeed, List.length_cons, List.length_cons]
      rw [run_succ_of_next hall, run_succ_of_next honly, observe_succ_of_next hall,
        observe_succ_of_next honly]
      exact ⟨t, t', hrun, hrun', harch, emitted_cons_congr u.resp hemit⟩
    · obtain ⟨r, hstep, hnone⟩ := step_other_request (s := { s with pending := x :: rest }) hw rfl hx
        hfeed (hfw.imp_right fun h w d hwd => h w d (hwd ▸ List.mem_cons_self))
      obtain ⟨t, t', hrun, hrun', harch, hemit⟩ := ih { s with resp := r } hw (hs.of_arch_eq rfl)
        hrest hfwRest resp
      rw [List.filter_cons_of_neg hfeed, List.length_cons, run_succ_of_next hstep,
        observe_succ_of_next hstep, hnone.emitted_cons]
      exact ⟨t, t', hrun, hrun', harch, hemit⟩

end Sys2Proof.Machine
end

