-- ==== Sys2Proof/Proofs/FrameRows.lean ====
section
/-! PROOF. The FRAME rows (30_encoding.md R62, R63, 41_decoder.md R125 to R139): the sample each answers,
and that it answers what DECODE of its 20 bytes does. -/

namespace Sys2Proof.Machine

open Sys2Proof

/-! ### The check of byte 3 (R130) -/

theorem State.echo_of_passes {s : State} {b : Byte} (h : s.cfg.checkRegHi = true → b = regHiExpected)
    (F : Frame) (S : Sample) :
    s.echo b F S = .next { s with resp := some (.ok (.sample S)) } :=
  if_pos ((regHiAccepted_iff s.cfg b).mpr h)

theorem State.echo_of_refused {s : State} {b : Byte} (hc : s.cfg.checkRegHi = true)
    (hb : b ≠ regHiExpected) (F : Frame) (S : Sample) :
    s.echo b F S = .next { s with resp := some (.error (.unrecognizedFrame F)) } :=
  if_neg fun h => hb ((regHiAccepted_iff s.cfg b).mp h hc)

/-- Settles O37, by the check of byte 3. -/
theorem frameRowsGiveTheirSamples : Obligations.FrameRowsGiveTheirSamples := by
  refine ⟨fun s p => rfl, fun s e h => ?passes, fun s d h => ?dateTimePasses,
    fun s e hc hb => ?refused, fun s d hc hb => ?dateTimeRefused⟩
  case passes =>
    have answers (F : Frame) (S : Sample) := State.echo_of_passes h F S
    exact ⟨answers _ _, answers _ _, answers _ _, answers _ _, answers _ _, fun _ => answers _ _⟩
  case dateTimePasses => exact State.echo_of_passes h _ _
  case refused =>
    have answers (F : Frame) := State.echo_of_refused hc hb F
    exact ⟨answers _ _, answers _ _, answers _ _, answers _ _, answers _ _, fun _ => answers _ _⟩
  case dateTimeRefused => exact State.echo_of_refused hc hb _ _

/-! ### Agreement with DECODE -/

/-- DECODE of a register-echo frame is R130's check and the sample of the kind its register selects. -/
theorem exec_decode_eq_echo (s : State) {F : Frame} {k : FrameKind} (h0 : F[0] = heading)
    (h1 : F[1] = flagReg) (hk : echoKind s.cfg F[2] = k) :
    exec (.decode F) s = s.echo F[3] F (sampleOf s.cfg F k) := by
  by_cases h3 : s.cfg.checkRegHi = true → F[3] = regHiExpected
  · rw [exec_decode_echo h0 h1 h3 hk, State.echo_of_passes h3]
  · obtain ⟨hc, hb⟩ := Classical.not_imp.mp h3
    obtain ⟨r, hr⟩ := decodeSample_rejected_of_noFrame (.inr (.inr ⟨hc, h1, hb⟩))
    rw [exec_decode_of_rejected hr, State.echo_of_refused hc hb]

/-- DECODE of R63's layout. -/
theorem exec_decode_echoFrame {s : State} {reg : Byte} {e : EchoFields} {k : FrameKind}
    {S : EchoFields → Sample} (hk : echoKind s.cfg reg = k)
    (hS : sampleOf s.cfg (echoFrame reg e) k = S (echoFrame reg e).echoFields) :
    exec (.decode (echoFrame reg e)) s = s.echo e.regHi (echoFrame reg e) (S e) := by
  rw [echoFrame_fields] at hS
  rw [← hS]
  exact exec_decode_eq_echo s rfl rfl hk

/-- Settles O38, row by row: DECODE finds the row's kind from its register byte, and the fields from
where the layout puts them. -/
theorem frameRowsAgreeWithDecode : Obligations.FrameRowsAgreeWithDecode := by
  intro s i F hw hformat hburst henc
  obtain ⟨hmag, hquat, htemp, hbatt, hversion, hdateTime⟩ :=
    echoKind_named (WireConfig.wf_regNumbers hw)
  cases i with
  | frameStreamed p =>
    cases henc
    rw [exec_decode_of_accepted (decodeSample_of_classify (classify_streamed s.cfg _ rfl rfl)),
      sampleOf, streamFrame_fields]
    rfl
  | frameMag e => cases henc; exact (exec_decode_echoFrame hmag rfl).symm
  | frameQuat e => cases henc; exact (exec_decode_echoFrame hquat rfl).symm
  | frameTemp e => cases henc; exact (exec_decode_echoFrame htemp rfl).symm
  | frameBatt e => cases henc; exact (exec_decode_echoFrame hbatt rfl).symm
  | frameVersion e => cases henc; exact (exec_decode_echoFrame hversion rfl).symm
  | frameDateTime d =>
    cases henc
    rw [exec_decode_eq_echo s (F := dateTimeFrame s.cfg.regDateTime d) rfl rfl hdateTime, sampleOf,
      dateTimeFrame_fields]
    rfl
  | frameBurst reg e =>
    cases henc
    exact (exec_decode_echoFrame (echoKind_burst (hburst reg e rfl)) rfl).symm
  | _ => cases hformat <;> contradiction

end Sys2Proof.Machine
end

