-- ==== Sys2Proof/Proofs/Commands.lean ====
section
/-! PROOF. The CommandEncoder (42_encoder.md R159 to R172) and the request assembly's sequences
(30_encoding.md R73). -/

namespace Sys2Proof.Machine

open Sys2Proof

/-! ### The commands -/

/-- Settles O39. -/
theorem encoderRequestsBuildTheirCommands : Obligations.EncoderRequestsBuildTheirCommands :=
  fun _ _ _ _ => ⟨rfl, rfl, rfl, rfl, rfl, rfl, rfl, rfl, rfl, rfl⟩

/-- Settles O40. -/
theorem commandRowsBuildTheirCommands : Obligations.CommandRowsBuildTheirCommands :=
  fun _ _ _ _ => ⟨rfl, rfl, rfl, rfl, rfl, rfl, rfl, rfl, rfl, rfl⟩

theorem inRateTable_iff (cfg : WireConfig) (rate : Byte) :
    inRateTable cfg rate = true ↔ ∃ f, (rate, f) ∈ cfg.rateTable := by
  simp [inRateTable]

theorem State.buildRate_of_mem {s : State} {rate : Byte} (h : ∃ f, (rate, f) ∈ s.cfg.rateTable) :
    s.buildRate rate
      = .next { s with resp := some (.ok (.command (commandBytes cmdRate rate 0#8))) } :=
  if_pos ((inRateTable_iff s.cfg rate).mpr h)

theorem State.buildRate_of_not_mem {s : State} {rate : Byte} (h : ∀ f, (rate, f) ∉ s.cfg.rateTable) :
    s.buildRate rate = .next { s with resp := some (.error (.badArgument rate)) } :=
  if_neg fun hin => (not_exists.mpr h) ((inRateTable_iff s.cfg rate).mp hin)

/-- Settles O41. -/
theorem setRateAcceptsOnlyTableCodes : Obligations.SetRateAcceptsOnlyTableCodes := fun _ _ =>
  ⟨fun h => ⟨State.buildRate_of_mem h, State.buildRate_of_mem h⟩,
    fun h => ⟨State.buildRate_of_not_mem h, State.buildRate_of_not_mem h⟩⟩

/-- Settles O42, by the two ways in which the shared builder ends. -/
theorem fwUpdateNeedsItsCode : Obligations.FwUpdateNeedsItsCode := by
  intro s
  obtain ⟨hnone, hbuild⟩ | ⟨c, hsome, hbuild⟩ := s.buildFwUpdate_cases
  · exact ⟨fun c hc => absurd (hnone.symm.trans hc) nofun, fun _ => ⟨hbuild, hbuild⟩⟩
  · refine ⟨fun c' hc' => ?_, fun hc' => absurd (hsome.symm.trans hc') nofun⟩
    obtain rfl : c = c' := Option.some.inj (hsome.symm.trans hc')
    exact ⟨hbuild, hbuild⟩

/-! ### Sequences of requests (R73, R171) -/

/-- A line of R72 that issues a request puts in its word and DEC_IN value. -/
theorem issue_eq (cfg : WireConfig) {i : Instr} (hi : i.format = .hreq) :
    ∃ w d, issue cfg i = [.request w d] ∧ decodeRequest w d = .accepted i := by
  obtain ⟨w, d, henc, hd⟩ := requestsDecodeToThemselves cfg i hi
  exact ⟨w, d, by rw [issue, henc], hd⟩

/-- The answer to a request that has been issued, and the state in which the next is taken. -/
theorem observe_issue {s : State} {i : Instr} {rest : List Input} {r : Response} (hw : s.cfg.wf = true)
    (hi : i.format = .hreq) (hp : s.pending = issue s.cfg i ++ rest)
    (hx : exec i { s with pending := rest, resp := none }
      = .next { s with pending := rest, resp := some r }) (k : Nat) :
    observe (k + 1) s = some r :: observe k { s with pending := rest, resp := some r } := by
  obtain ⟨w, d, hissue, hd⟩ := issue_eq s.cfg hi
  rw [hissue] at hp
  exact observe_succ_of_next ((step_request hw hp hd).trans hx) k

/-- Settles O49: each request of a sequence is answered in turn. -/
theorem pseudoInstructionsExpandInOrder : Obligations.PseudoInstructionsExpandInOrder := by
  refine ⟨fun s yy mon day hour min sec ms rest hw hp => ?time, fun s mhz rest hw hp => ?rate⟩
  case time =>
    simp only [setTime, List.append_assoc] at hp
    rw [observe_issue hw rfl hp rfl, observe_issue (by exact hw) rfl rfl rfl,
      observe_issue (by exact hw) rfl rfl rfl, observe_issue (by exact hw) rfl rfl rfl]
    rfl
  case rate =>
    obtain ⟨e, he, hnearest, -⟩ :=
      exists_nearestRate mhz.toNat (WireConfig.rateTableOk hw).nonempty
    simp only [setRateHz, hnearest, List.append_assoc] at hp
    refine ⟨e, he, ?_⟩
    rw [observe_issue hw rfl hp (exec_lutHzRate_of_some hnearest),
      observe_issue (i := .encSetRate e.1) (by exact hw) rfl rfl
        (by exact State.buildRate_of_mem ⟨e.2, he⟩)]
    rfl

end Sys2Proof.Machine
end

