-- ==== Sys2Proof/Proofs/Timestamps.lean ====
section
/-! PROOF. The decimal fields of a timestamp (41_decoder.md R138): their digits spell their number, and
they are padded and not truncated. -/

namespace Sys2Proof.Machine

open Sys2Proof

theorem digitValue_digitChar {d : Nat} (h : d < 10) : digitValue 10 (digitChar d) = some d := by
  interval_cases d <;> rfl

/-- One more digit behind a run of digits. -/
theorem digitsValue_concat {l : List Char} {c : Char} {acc v d : Nat}
    (hl : digitsValue 10 acc l = some v) (hc : digitValue 10 c = some d) :
    digitsValue 10 acc (l ++ [c]) = some (v * 10 + d) := by
  induction l generalizing acc with
  | nil =>
    obtain rfl := Option.some.inj hl
    simp [digitsValue, hc]
  | cons a rest ih =>
    rw [digitsValue] at hl
    rw [List.cons_append, digitsValue]
    cases ha : digitValue 10 a with
    | none => simp [ha] at hl
    | some k =>
      simp only [ha] at hl ⊢
      exact ih hl

/-- With fuel enough the digits of a number spell it. -/
theorem digitsValue_decimalDigits {fuel n : Nat} (h : n < fuel) :
    digitsValue 10 0 (decimalDigits fuel n) = some n := by
  induction fuel generalizing n with
  | zero => exact absurd h (Nat.not_lt_zero n)
  | succ fuel ih =>
    rw [decimalDigits]
    split_ifs with hlt
    · simp [digitsValue, digitValue_digitChar hlt]
    · rw [digitsValue_concat (ih (by omega)) (digitValue_digitChar (Nat.mod_lt n (by decide)))]
      congr 1
      omega

/-- Leading zeros do not change the number. -/
theorem digitsValue_zeros (k : Nat) (l : List Char) :
    digitsValue 10 0 (List.replicate k '0' ++ l) = digitsValue 10 0 l := by
  induction k with
  | zero => rfl
  | succ k ih =>
    rw [List.replicate_succ, List.cons_append, digitsValue,
      show digitValue 10 '0' = some 0 from rfl]
    exact ih

/-- A number below 10 to the w has at most w digits. -/
theorem length_decimalDigits_le {fuel n w : Nat} (hw : 0 < w) (h : n < 10 ^ w) :
    (decimalDigits fuel n).length ≤ w := by
  induction fuel generalizing n w with
  | zero => exact Nat.zero_le w
  | succ fuel ih =>
    rw [decimalDigits]
    split_ifs with hlt
    · exact hw
    · obtain ⟨v, rfl⟩ := Nat.exists_eq_succ_of_ne_zero hw.ne'
      rw [Nat.succ_eq_add_one, pow_succ] at h
      have hv : 0 < v := Nat.pos_of_ne_zero fun h0 => by simp [h0] at h; omega
      have hlen := ih hv (show n / 10 < 10 ^ v by omega)
      rw [List.length_append, List.length_singleton]
      omega

theorem length_dec (n w : Nat) :
    (dec n w).length = max w (decimalDigits (n + 1) n).length := by
  simp only [dec, List.length_append, List.length_replicate]
  omega

/-- Settles O60. -/
theorem decimalFieldsPadAndKeepTheirValue : Obligations.DecimalFieldsPadAndKeepTheirValue := by
  intro n w
  rw [length_dec]
  refine ⟨?value, le_max_left _ _, fun hw h => max_eq_left (length_decimalDigits_le hw h)⟩
  case value => exact (digitsValue_zeros _ _).trans (digitsValue_decimalDigits (Nat.lt_succ_self n))

end Sys2Proof.Machine
end

