-- ==== Sys2Proof/Proofs/Binary32.lean ====
section
/-! PROOF. The binary32 floats (00_scope.md R13, D13): the rounding step is to nearest, ties to even, and
a numerator of at most 24 bits over a power of two is exact. -/

namespace Sys2Proof.Machine

open Sys2Proof

/-! ### The rounding step -/

/-- Settles O59, by the three cases of twice the remainder against the divisor. -/
theorem roundingIsToNearestEven : Obligations.RoundingIsToNearestEven := by
  intro a b hb
  have hr : a % b < b := Nat.mod_lt a hb
  have ha : (a : Int) = (a / b : Nat) * b + (a % b : Nat) := by
    exact_mod_cast (Nat.div_add_mod' a b).symm
  have hdown : (a : Int) - (a / b : Nat) * b = (a % b : Nat) := by omega
  have hup : (a : Int) - (a / b + 1 : Nat) * b = (a % b : Nat) - b := by
    rw [Nat.cast_add, add_mul]
    omega
  simp only [roundHalfEven]
  split_ifs
  · rw [hdown]; omega
  · rw [hup]; omega
  · rw [hdown]; omega
  · rw [hup]; omega

/-- Nothing is rounded where the quotient is whole. -/
theorem roundHalfEven_mul_right (x : Nat) {d : Nat} (hd : 0 < d) : roundHalfEven (x * d) d = x := by
  simp [roundHalfEven, hd]

/-! ### The bits of a numerator over a power of two -/

section

variable {n k : Nat}

/-- The exponent of n over a power of two. -/
theorem floorLog2_pow_two (hn : n ≠ 0) : floorLog2 n (2 ^ k) = (n.log2 : Int) - k := by
  have hle : 2 ^ n.log2 ≤ n := Nat.log2_self_le hn
  simp only [floorLog2, Nat.log2_two_pow]
  refine if_pos ?_
  obtain h | h := le_total k n.log2
  · have h1 : ((n.log2 : Int) - k).toNat = n.log2 - k := by omega
    have h2 : (-((n.log2 : Int) - k)).toNat = 0 := by omega
    rw [h1, h2, ← pow_add, Nat.add_sub_cancel' h, pow_zero, mul_one]
    exact hle
  · have h1 : ((n.log2 : Int) - k).toNat = 0 := by omega
    have h2 : (-((n.log2 : Int) - k)).toNat = k - n.log2 := by omega
    rw [h1, h2, pow_zero, mul_one]
    calc 2 ^ k = 2 ^ n.log2 * 2 ^ (k - n.log2) := by rw [← pow_add, Nat.add_sub_cancel' h]
      _ ≤ n * 2 ^ (k - n.log2) := Nat.mul_le_mul_right _ hle

/-- A positive number below 2^24, shifted up to 24 bits. -/
theorem shifted_bounds (hn : n ≠ 0) (h24 : n < 2 ^ 24) :
    n.log2 ≤ 23 ∧ 2 ^ 23 ≤ n * 2 ^ (23 - n.log2) ∧ n * 2 ^ (23 - n.log2) < 2 ^ 24 := by
  have hlog : n.log2 ≤ 23 := Nat.lt_succ_iff.mp ((Nat.log2_lt hn).mpr h24)
  refine ⟨hlog, ?_, ?_⟩
  · calc 2 ^ 23 = 2 ^ n.log2 * 2 ^ (23 - n.log2) := by rw [← pow_add, Nat.add_sub_cancel' hlog]
      _ ≤ n * 2 ^ (23 - n.log2) := Nat.mul_le_mul_right _ (Nat.log2_self_le hn)
  · calc n * 2 ^ (23 - n.log2) < 2 ^ (n.log2 + 1) * 2 ^ (23 - n.log2) :=
          Nat.mul_lt_mul_of_pos_right Nat.lt_log2_self (Nat.two_pow_pos _)
      _ = 2 ^ 24 := by rw [← pow_add]; congr 1; omega

/-- The leading bit of a 24-bit significand carries into the exponent field, and the sum is finite. -/
theorem exponent_add_significand {l k m : Nat} (hl : l ≤ 23) (hk : k ≤ 100) (hlow : 2 ^ 23 ≤ m)
    (hhigh : m < 2 ^ 24) :
    min ((l + 126 - k) * 2 ^ 23 + m) 0x7F800000 = (l + 127 - k) * 2 ^ 23 + (m - 2 ^ 23) := by
  omega

/-- The exponent field and the fraction of n over 2^k: nothing is rounded. -/
theorem magnitude32_pow_two (hn : n ≠ 0) (h24 : n < 2 ^ 24) (hk : k ≤ 100) :
    magnitude32 n (2 ^ k)
      = (n.log2 + 127 - k) * 2 ^ 23 + (n * 2 ^ (23 - n.log2) - 2 ^ 23) := by
  obtain ⟨hlog, hlow, hhigh⟩ := shifted_bounds hn h24
  have hexp : max ((n.log2 : Int) - k) (-126) = (n.log2 : Int) - k := by omega
  have hup : (23 - ((n.log2 : Int) - k)).toNat = (23 - n.log2) + k := by omega
  have hdown : ((n.log2 : Int) - k - 23).toNat = 0 := by omega
  have hfield : ((n.log2 : Int) - k + 126).toNat = n.log2 + 126 - k := by omega
  simp only [magnitude32, if_neg hn, floorLog2_pow_two hn, hexp, hup, hdown, hfield, pow_zero, mul_one,
    pow_add, ← mul_assoc, roundHalfEven_mul_right _ (Nat.two_pow_pos k)]
  exact exponent_add_significand hlog hk hlow hhigh

end

/-- The value of the bits of a normal number. -/
theorem binary32Value_normal (neg : Prop) [Decidable neg] {field frac : Nat} (h0 : 0 < field)
    (hfield : field < 255) (hfrac : frac < 2 ^ 23) :
    binary32Value (BitVec.ofNat 32 ((if neg then 2 ^ 31 else 0) + (field * 2 ^ 23 + frac)))
      = (if neg then -1 else 1) * ((frac + 2 ^ 23 : Nat) : ℚ) * (2 : ℚ) ^ ((field : Int) - 150) := by
  set sign : Nat := if neg then 2 ^ 31 else 0 with hsign
  have hcases : (neg ∧ sign = 2 ^ 31) ∨ (¬ neg ∧ sign = 0) := by
    by_cases h : neg <;> simp [hsign, h]
  have hnat : (BitVec.ofNat 32 (sign + (field * 2 ^ 23 + frac))).toNat
      = sign + (field * 2 ^ 23 + frac) := by
    rw [BitVec.toNat_ofNat]
    exact Nat.mod_eq_of_lt (by omega)
  have hexp : (sign + (field * 2 ^ 23 + frac)) / 2 ^ 23 % 256 = field := by omega
  have hlow : (sign + (field * 2 ^ 23 + frac)) % 2 ^ 23 = frac := by omega
  have hmsb : (BitVec.ofNat 32 (sign + (field * 2 ^ 23 + frac))).msb = true ↔ neg := by
    rw [BitVec.msb_eq_decide, decide_eq_true_iff, hnat]
    obtain ⟨hneg, h⟩ | ⟨hneg, h⟩ := hcases <;> simp only [hneg, iff_true, iff_false] <;> omega
  simp only [binary32Value, hnat, hexp, hlow, hmsb, if_neg h0.ne']

/-- Shifting a significand up and its exponent down keeps the value. -/
theorem shift_cancels (n : Nat) {l k : Nat} (hl : l ≤ 23) (hk : k ≤ 100) :
    ((n * 2 ^ (23 - l) : Nat) : ℚ) * (2 : ℚ) ^ (((l + 127 - k : Nat) : Int) - 150)
      = (n : ℚ) / 2 ^ k := by
  have hexp : ((l + 127 - k : Nat) : Int) - 150 = -((23 - l : Nat) : Int) - (k : Int) := by omega
  rw [hexp, zpow_sub₀ two_ne_zero, zpow_neg, zpow_natCast, zpow_natCast]
  push_cast
  field_simp

/-- A number is its sign times its magnitude. -/
theorem sign_mul_natAbs (num : Int) :
    (if num < 0 then (-1 : ℚ) else 1) * (num.natAbs : ℚ) = num := by
  rw [Nat.cast_natAbs]
  split_ifs with h
  · rw [abs_of_neg h]; push_cast; ring
  · rw [abs_of_nonneg (not_lt.mp h), one_mul]

/-- A numerator of at most 24 bits over a power of two is exact in binary32. -/
theorem binary32Value_pow_two {num : Int} {k : Nat} (h24 : num.natAbs < 2 ^ 24) (hk : k ≤ 100) :
    binary32Value (Fixed.binary32 ⟨num, 2 ^ k⟩) = (num : ℚ) / 2 ^ k := by
  obtain rfl | hnum := eq_or_ne num 0
  · simp [Fixed.binary32, magnitude32, binary32Value]
  · have hn : num.natAbs ≠ 0 := Int.natAbs_ne_zero.mpr hnum
    obtain ⟨hlog, hlow, hhigh⟩ := shifted_bounds hn h24
    rw [Fixed.binary32, magnitude32_pow_two hn h24 hk,
      binary32Value_normal _ (by omega) (by omega) (by omega), Nat.sub_add_cancel hlow, mul_assoc,
      shift_cancels _ hlog hk, ← mul_div_assoc, sign_mul_natAbs]

/-- The reading of a 16-bit pattern stays within 15 bits and a sign. -/
theorem natAbs_s16_le (v : HalfWord) : (s16 v).natAbs ≤ 2 ^ 15 := by
  have hlow := BitVec.le_toInt v
  have hhigh := BitVec.toInt_lt (x := v)
  unfold s16
  omega

/-- Settles O58: each scale is a numerator of at most 22 bits over a power of two. -/
theorem inertialFloatsAreExact : Obligations.InertialFloatsAreExact := by
  intro v
  have hraw := natAbs_s16_le v
  have hgyro : (s16 v * 125).natAbs < 2 ^ 24 := by omega
  have hangle : (s16 v * 45).natAbs < 2 ^ 24 := by omega
  refine ⟨?acc, ?gyro, ?angle, ?quat⟩
  case acc => exact (binary32Value_pow_two (k := 11) (by omega) (by decide)).trans (by norm_num)
  case gyro => exact (binary32Value_pow_two (k := 11) hgyro (by decide)).trans (by norm_num)
  case angle => exact (binary32Value_pow_two (k := 13) hangle (by decide)).trans (by norm_num)
  case quat => exact (binary32Value_pow_two (k := 15) (by omega) (by decide)).trans (by norm_num)

end Sys2Proof.Machine
end
